-- ==== Sys2Proof/Word.lean ====
section
/-! DEFINITION. The machine's words: bytes, the request word and the response word. Bit 0 is the least
significant bit of every one of them (R8). -/

namespace Sys2Proof

/-- One byte of the pixel buffer, of a payload, or of an opcode. -/
abbrev Byte := BitVec 8

/-- A request word: 96 bits, and there is no other length (R60). -/
abbrev RequestWord := BitVec 96

/-- A response word: 64 bits (R66). -/
abbrev ResponseWord := BitVec 64

end Sys2Proof
end

