-- ==== Sys2Proof/Syntax.lean ====
section
/-! DEFINITION. The syntax of the 13 operations (R63), one constructor per row of spec/opcode_table.json. Coordinates and
sizes are naturals (R9, R62); a pixel value or contrast is a byte; the polarity is a flag. -/

namespace Sys2Proof

/-- The operations a request word can name, with their operands (R63, R70). -/
inductive Instr where
  | getWidth
  | getHeight
  | getPixel (x y : Nat)
  | setPixel (x y : Nat) (v : Byte)
  | fill (v : Byte)
  | partialFill (x y w h : Nat) (v : Byte)
  | flush
  | partialFlush (x y w h : Nat)
  | initDisplay
  | displayOn
  | displayOff
  | setContrast (c : Byte)
  | setInverted (b : Bool)
  deriving DecidableEq, Repr

end Sys2Proof
end

