-- ==== Sys2Proof/WellFormed.lean ====
section
/-! DEFINITION. When an instruction has a word: each coordinate and size fits its 16-bit field (R61, R70). -/

namespace Sys2Proof

/-- A natural fits a 16-bit field of the request word (R61; COORD_BITS of R5). -/
def fitsField (n : Nat) : Bool := decide (n < 65536)

/-- Every operand fits its field. Bytes and the polarity flag fit by their types. -/
def Instr.wellFormed : Instr → Bool
  | .getWidth => true
  | .getHeight => true
  | .getPixel x y => fitsField x && fitsField y
  | .setPixel x y _ => fitsField x && fitsField y
  | .fill _ => true
  | .partialFill x y w h _ => fitsField x && fitsField y && fitsField w && fitsField h
  | .flush => true
  | .partialFlush x y w h => fitsField x && fitsField y && fitsField w && fitsField h
  | .initDisplay => true
  | .displayOn => true
  | .displayOff => true
  | .setContrast _ => true
  | .setInverted _ => true

end Sys2Proof
end

