-- ==== Sys2Proof/Decode.lean ====
section
/-! DEFINITION. Decoding a request word (R61 to R65, R69) and encoding an instruction. Decoding is total: every one of the
2^96 words is an instruction or is rejected by name. It reads no state (R68, R69). -/

namespace Sys2Proof

/-- The fields of a request word (R61). -/
structure RequestFields where
  op : Byte
  v : Byte
  x : BitVec 16
  y : BitVec 16
  w : BitVec 16
  h : BitVec 16
  rsv : BitVec 16
  deriving DecidableEq, Repr

/-- The field layout of R61, read. -/
def splitWord (word : RequestWord) : RequestFields where
  op := word.extractLsb' 0 8
  v := word.extractLsb' 8 8
  x := word.extractLsb' 16 16
  y := word.extractLsb' 32 16
  w := word.extractLsb' 48 16
  h := word.extractLsb' 64 16
  rsv := word.extractLsb' 80 16

/-- The field layout of R61, written: RSV_H_W_Y_X_VOP. -/
def joinWord (f : RequestFields) : RequestWord :=
  f.rsv ++ (f.h ++ (f.w ++ (f.y ++ (f.x ++ (f.v ++ f.op)))))

/-- The formats of R64. -/
inductive Format where
  | f0
  | fv
  | fb
  | fxy
  | fvxy
  | fr
  | fvr
  deriving DecidableEq, Repr

/-- The mask column of R64: the bits that must match. -/
def Format.mask : Format → RequestWord
  | .f0 => 0xFFFFFFFFFFFFFFFFFFFFFFFF#96
  | .fv => 0xFFFFFFFFFFFFFFFFFFFF00FF#96
  | .fb => 0xFFFFFFFFFFFFFFFFFFFFFEFF#96
  | .fxy => 0xFFFFFFFFFFFF00000000FFFF#96
  | .fvxy => 0xFFFFFFFFFFFF0000000000FF#96
  | .fr => 0xFFFF0000000000000000FFFF#96
  | .fvr => 0xFFFF000000000000000000FF#96

/-- The operations by name, without operands. -/
inductive OpName where
  | getWidth
  | getHeight
  | getPixel
  | setPixel
  | fill
  | partialFill
  | flush
  | partialFlush
  | initDisplay
  | displayOn
  | displayOff
  | setContrast
  | setInverted
  deriving DecidableEq, Repr

/-- A row of the opcode map. -/
structure OpRow where
  opcode : Byte
  name : OpName
  format : Format
  deriving DecidableEq, Repr

/-- The opcode map of R63. -/
def opcodeMap : List OpRow :=
  [⟨0x01#8, .getWidth, .f0⟩,
   ⟨0x02#8, .getHeight, .f0⟩,
   ⟨0x10#8, .getPixel, .fxy⟩,
   ⟨0x11#8, .setPixel, .fvxy⟩,
   ⟨0x20#8, .fill, .fv⟩,
   ⟨0x21#8, .partialFill, .fvr⟩,
   ⟨0x30#8, .flush, .f0⟩,
   ⟨0x31#8, .partialFlush, .fr⟩,
   ⟨0x40#8, .initDisplay, .f0⟩,
   ⟨0x41#8, .displayOn, .f0⟩,
   ⟨0x42#8, .displayOff, .f0⟩,
   ⟨0x43#8, .setContrast, .fv⟩,
   ⟨0x44#8, .setInverted, .fb⟩]

/-- The match value of a row: the opcode in bits 7:0, zeros above (R64). -/
def OpRow.matchWord (r : OpRow) : RequestWord := r.opcode.setWidth 96

/-- The row of an opcode, if R63 has one. -/
def findRow (opcode : Byte) : Option OpRow := opcodeMap.find? (fun r => r.opcode == opcode)

/-- Operand assembly (R62): each operand is its field, unsigned; the polarity is V[0]. -/
def assembleOperands (name : OpName) (f : RequestFields) : Instr :=
  match name with
  | .getWidth => .getWidth
  | .getHeight => .getHeight
  | .getPixel => .getPixel f.x.toNat f.y.toNat
  | .setPixel => .setPixel f.x.toNat f.y.toNat f.v
  | .fill => .fill f.v
  | .partialFill => .partialFill f.x.toNat f.y.toNat f.w.toNat f.h.toNat f.v
  | .flush => .flush
  | .partialFlush => .partialFlush f.x.toNat f.y.toNat f.w.toNat f.h.toNat
  | .initDisplay => .initDisplay
  | .displayOn => .displayOn
  | .displayOff => .displayOff
  | .setContrast => .setContrast f.v
  | .setInverted => .setInverted (f.v.getLsbD 0)

/-- Why a word is illegal (R65). -/
inductive DecodeError where
  /-- (a): OP is not in the table of R63. -/
  | undefinedOp (opcode : Byte)
  /-- (b): a bit outside the fields its format uses is 1. -/
  | unusedBitSet (name : OpName)
  deriving DecidableEq, Repr

/-- Decoding (R69): find the row of OP, test the masked word against the row's match, read the operands. -/
def decode (word : RequestWord) : Except DecodeError Instr :=
  match findRow (splitWord word).op with
  | none => .error (.undefinedOp (splitWord word).op)
  | some r =>
    if word &&& r.format.mask = r.matchWord then
      .ok (assembleOperands r.name (splitWord word))
    else
      .error (.unusedBitSet r.name)

/-- The opcode of an instruction (R63). -/
def Instr.opcode : Instr → Byte
  | .getWidth => 0x01#8
  | .getHeight => 0x02#8
  | .getPixel _ _ => 0x10#8
  | .setPixel _ _ _ => 0x11#8
  | .fill _ => 0x20#8
  | .partialFill _ _ _ _ _ => 0x21#8
  | .flush => 0x30#8
  | .partialFlush _ _ _ _ => 0x31#8
  | .initDisplay => 0x40#8
  | .displayOn => 0x41#8
  | .displayOff => 0x42#8
  | .setContrast _ => 0x43#8
  | .setInverted _ => 0x44#8

/-- The fields of an instruction's word (R61, R64, R70): every field its format does not use is zero. -/
def Instr.fields (i : Instr) : RequestFields :=
  let blank : RequestFields := ⟨i.opcode, 0, 0, 0, 0, 0, 0⟩
  match i with
  | .getWidth => blank
  | .getHeight => blank
  | .getPixel x y => { blank with x := BitVec.ofNat 16 x, y := BitVec.ofNat 16 y }
  | .setPixel x y v => { blank with v := v, x := BitVec.ofNat 16 x, y := BitVec.ofNat 16 y }
  | .fill v => { blank with v := v }
  | .partialFill x y w h v =>
    { blank with v := v, x := BitVec.ofNat 16 x, y := BitVec.ofNat 16 y, w := BitVec.ofNat 16 w, h := BitVec.ofNat 16 h }
  | .flush => blank
  | .partialFlush x y w h =>
    { blank with x := BitVec.ofNat 16 x, y := BitVec.ofNat 16 y, w := BitVec.ofNat 16 w, h := BitVec.ofNat 16 h }
  | .initDisplay => blank
  | .displayOn => blank
  | .displayOff => blank
  | .setContrast c => { blank with v := c }
  | .setInverted b => { blank with v := (BitVec.ofBool b).setWidth 8 }

/-- The request word of a well-formed instruction (R70). -/
def encode (i : Instr) : RequestWord := joinWord i.fields

/-- The host's view of the decoder: the instruction whose bits are `w`, numbered as spec/opcode_table.json numbers
them. The request is one 96-bit word, so bit k of `w` is bit k of the request; bits at or above `nbits` are 0. -/
def decodeTableWord (nbits w : Nat) : Option Instr :=
  if nbits ≤ 96 then
    match decode (BitVec.ofNat 96 (w % 2 ^ nbits)) with
    | .ok i => some i
    | .error _ => none
  else none

end Sys2Proof
end

