-- ==== Sys2Proof/Config.lean ====
section
/-! DEFINITION. The configuration registers of R5, R23 and R142, latched at reset, and the one configuration that
`State.reset` is built from. A parameter the spec leaves OPEN is a field here, so a statement over every state is a
statement over every value of it. The values `Config.reference` needs for OPEN bytes are opaque: nothing can be proved
of them (log 5). -/

namespace Sys2Proof

/-- How a pixel column becomes the device column cursor (R5, R115). -/
inductive ColAddrMode where
  | pixel
  | pair
  deriving DecidableEq, Repr, Inhabited

/-- The scan direction sent by INIT_DISPLAY (R5, R141). -/
inductive ScanDir where
  | scanNormal
  | scanRemapped
  deriving DecidableEq, Repr, Inhabited

/-- The controller opcode bytes OPC_* (R142). -/
structure Opcodes where
  displayOff : Byte
  displayOn : Byte
  colLow : Byte
  colHigh : Byte
  rowAddr : Byte
  startLine : Byte
  remapOff : Byte
  remapOn : Byte
  muxRatio : Byte
  scanNormal : Byte
  scanRemapped : Byte
  displayOffset : Byte
  contrast : Byte
  entireOn : Byte
  normal : Byte
  inverted : Byte
  deriving DecidableEq, Repr

/-- The configuration registers, with the widths of R23. -/
structure EngineConfig where
  width : BitVec 16
  height : BitVec 16
  checked : Bool
  colAddrMode : ColAddrMode
  defaultContrast : Byte
  initScanDir : ScanDir
  teBits : BitVec 6
  opc : Opcodes
  deriving DecidableEq, Repr

/-! The OPEN bytes of R5 and R142: implementation constants with no value in the model (log 5). -/

opaque Config.defaultContrast : Byte
opaque Config.initScanDir : ScanDir
opaque Config.opcDisplayOff : Byte
opaque Config.opcDisplayOn : Byte
/-- The upper nibble of OPC_COL_LOW, whose bits 3:0 R142 requires to be 0. -/
opaque Config.opcColLowUpper : BitVec 4
/-- The upper nibble of OPC_COL_HIGH, whose bits 3:0 R142 requires to be 0. -/
opaque Config.opcColHighUpper : BitVec 4
opaque Config.opcRowAddr : Byte
opaque Config.opcStartLine : Byte
opaque Config.opcRemapOff : Byte
opaque Config.opcRemapOn : Byte
opaque Config.opcMuxRatio : Byte
opaque Config.opcScanNormal : Byte
opaque Config.opcScanRemapped : Byte
opaque Config.opcDisplayOffset : Byte
opaque Config.opcContrast : Byte
opaque Config.opcEntireOn : Byte
opaque Config.opcNormal : Byte
opaque Config.opcInverted : Byte

/-- The opcode bytes of `Config.reference`: none of them known (log 5). -/
def Config.referenceOpcodes : Opcodes where
  displayOff := Config.opcDisplayOff
  displayOn := Config.opcDisplayOn
  colLow := Config.opcColLowUpper ++ 0#4
  colHigh := Config.opcColHighUpper ++ 0#4
  rowAddr := Config.opcRowAddr
  startLine := Config.opcStartLine
  remapOff := Config.opcRemapOff
  remapOn := Config.opcRemapOn
  muxRatio := Config.opcMuxRatio
  scanNormal := Config.opcScanNormal
  scanRemapped := Config.opcScanRemapped
  displayOffset := Config.opcDisplayOffset
  contrast := Config.opcContrast
  entireOn := Config.opcEntireOn
  normal := Config.opcNormal
  inverted := Config.opcInverted

/-- The reference configuration of R5 and of the test vectors: WIDTH = 256, HEIGHT = 64, CHECKED = 1,
COL_ADDR_MODE = PIXEL. TE_BITS is the widest the spec allows. DESIGN CHOICE, log 4; the OPEN bytes: log 5. -/
def Config.reference : EngineConfig where
  width := 256#16
  height := 64#16
  checked := true
  colAddrMode := .pixel
  defaultContrast := Config.defaultContrast
  initScanDir := Config.initScanDir
  teBits := 32#6
  opc := Config.referenceOpcodes

end Sys2Proof
end

