-- ==== Sys2Proof/Machine/State.lean ====
section
/-! DEFINITION. The state of the engine as 10_state.md gives it (R20 to R33), with the scripts of what its two neighbours,
the host and the Interface, will do (log 2), the observation of a run (R201), and the state after reset. -/

namespace Sys2Proof.Machine

/-- The pixel buffer (R26): pairs of a byte address and a byte, addresses strictly rising, no entry 0x00. An address not
listed reads as 0x00, the reset contents (R26, R33). -/
abbrev Memory := List Host.Cell

/-- A downstream transaction (R27, R140). -/
inductive Transaction where
  /-- `write_cmd`: one command opcode and zero or more payload bytes. -/
  | cmd (opcode : Byte) (payload : List Byte)
  /-- `write_data`: a raw payload, no opcode. -/
  | data (payload : List Byte)
  deriving DecidableEq, Repr

/-- The Interface's answer to a transaction (R27). -/
inductive Answer where
  | ok
  | err (code : BitVec 32)
  deriving DecidableEq, Repr

/-- What happened on the downstream port. -/
inductive PortEvent where
  /-- The engine issued a transaction. -/
  | sent (t : Transaction)
  /-- The Interface answered the transaction issued last. -/
  | answered (a : Answer)
  /-- A reset abandoned the transaction issued last, unanswered (R190). -/
  | abandoned
  deriving DecidableEq, Repr

/-- What the host does next (R202). -/
inductive HostInput where
  /-- It presents a request word (R28). -/
  | request (word : RequestWord)
  /-- It resets the engine with a configuration (R190). -/
  | reset (config : EngineConfig)
  deriving DecidableEq, Repr

/-- What the downstream side does next (R2, R27, R197; log 2, 10 and 11). -/
inductive IfaceInput where
  /-- The Interface answers the outstanding transaction. -/
  | answer (a : Answer)
  /-- The Interface answers a transaction that a reset abandoned: the engine ignores it (R190). -/
  | late (a : Answer)
  /-- The outstanding transaction is not answered yet: the host may act first. -/
  | silent
  /-- The engine has not issued its next transaction yet: the host may act first. -/
  | hold
  deriving DecidableEq, Repr

/-- The sequencing state of a multi-transaction operation (R29). -/
structure Operation where
  /-- `op`: the request being executed, decoded. -/
  request : Instr
  /-- `step`: the position in the operation's transaction sequence, counted from 0. -/
  step : Nat
  /-- `pending`: whether the transaction at `step` has been issued and awaits its answer. -/
  pending : Bool
  deriving DecidableEq, Repr

/-- The machine: the engine's state (R20), the observation (R201), and the two scripts. -/
structure State where
  /-- The configuration registers (R23). -/
  config : EngineConfig
  /-- The pixel buffer (R26). -/
  buf : Memory
  /-- The fault register, also the output `fault[1:0]` (R24). -/
  fault : BitVec 2
  /-- The operation in progress, with its position (R29); none when idle. -/
  op : Option Operation
  /-- Every response word sent, oldest first (R28, R201). -/
  responses : List ResponseWord
  /-- What happened on the downstream port, oldest first (R27, R201). -/
  downstream : List PortEvent
  /-- Whether a reset has abandoned an operation in this run (R190, D24; log 12): the run has no successful end (R201). -/
  abandoned : Bool
  /-- Whether a reset has cleared a FAULT of this run (D17, I1, I2; log 21): the run has no successful end (R201). -/
  violated : Bool
  /-- What the host will do, oldest first (log 2). -/
  host : List HostInput
  /-- What the downstream side will do, oldest first (log 2). -/
  iface : List IfaceInput
  deriving DecidableEq, Repr

/-- Reasons the machine stops with a fault. -/
inductive Fault where
  /-- Raised by a pixel access, a fill or a flush that would touch a byte outside `buf[0 .. N_BYTES−1]`, which R10 and
  R41 say does not exist. No legal configuration forms such an address (R41, R121), so it is never raised there. Safe. -/
  | noSuchByte
  deriving DecidableEq, Repr

/-- Reasons the machine refuses to go on. -/
inductive Refusal where
  /-- Raised by `exec` for an instruction without a meaning. No arm does so. Safe. -/
  | notModelled (mnemonic : String)
  /-- Raised by `step` when the host resets the engine with a configuration outside the limits of R190: no engine exists,
  and there is no state to step (I13). Safe. -/
  | illegalConfiguration
  deriving DecidableEq, Repr

/-- The state right after a reset with configuration `c` (R33, R190, R191): the buffer reads 0x00 everywhere, FAULT is
NONE, nothing is in progress, and reset has emitted nothing. The scripts are empty (log 2). -/
def State.resetWith (c : EngineConfig) : State where
  config := c
  buf := []
  fault := 0#2
  op := none
  responses := []
  downstream := []
  abandoned := false
  violated := false
  host := []
  iface := []

/-- The machine right after reset in the reference configuration (R5; log 4 and 5). -/
def State.reset : State := State.resetWith Config.reference

end Sys2Proof.Machine
end

