-- ==== Sys2Proof/Machine/Flags.lean ====
section
/-! DEFINITION. The engine has no flags (R22): an operation's result is the STATUS field of its response word and the
FAULT register. This file holds the response word of R66, its status codes (R67), and the FAULT values of R24. -/

namespace Sys2Proof.Machine

/-- The outcomes an operation reports (R67). -/
inductive Status where
  | ok
  | transportError
  | illegalOp
  | contractViolation
  deriving DecidableEq, Repr

/-- STATUS codes (R67). -/
def statusCode : Status → Byte
  | .ok => 0x00#8
  | .transportError => 0x01#8
  | .illegalOp => 0x02#8
  | .contractViolation => 0x03#8

/-- The response word (R66): ERR, a zero byte, VALUE, STATUS. -/
def responseWord (status : Status) (value : BitVec 16) (err : BitVec 32) : ResponseWord :=
  err ++ (0#8 ++ (value ++ statusCode status))

/-- STATUS, bits 7:0 (R66). -/
def statusField (r : ResponseWord) : Byte := r.extractLsb' 0 8

/-- VALUE, bits 23:8 (R66). -/
def valueField (r : ResponseWord) : BitVec 16 := r.extractLsb' 8 16

/-- RSV, bits 31:24 (R66). -/
def reservedField (r : ResponseWord) : Byte := r.extractLsb' 24 8

/-- ERR, bits 63:32 (R66). -/
def errField (r : ResponseWord) : BitVec 32 := r.extractLsb' 32 32

/-- The error code the Interface port carries: TE_BITS bits, zero-extended (R27, R66, D28; log 6). -/
def portErrorCode (c : EngineConfig) (code : BitVec 32) : BitVec 32 :=
  BitVec.ofNat 32 (code.toNat % 2 ^ c.teBits.toNat)

/-- FAULT = NONE (R24). -/
def faultNone : BitVec 2 := 0#2

/-- FAULT = CONTRACT_VIOLATION (R24). -/
def faultContractViolation : BitVec 2 := 1#2

/-- FAULT = UNDEFINED_ACCESS (R24). -/
def faultUndefinedAccess : BitVec 2 := 2#2

end Sys2Proof.Machine
end

