-- ==== Sys2Proof/Machine/Operands.lean ====
section
/-! DEFINITION. The addressing function of 40_pixel_access.md (R80 to R83), the only map from pixels to buffer bytes and
nibbles (R88), the derived sizes of R5 and R40, and the column value of R115. All arithmetic is on naturals (R9). -/

namespace Sys2Proof.Machine

/-- WIDTH as a natural. -/
def widthOf (c : EngineConfig) : Nat := c.width.toNat

/-- HEIGHT as a natural. -/
def heightOf (c : EngineConfig) : Nat := c.height.toNat

/-- N_BYTES = WIDTH·HEIGHT/2 (R5, R40). -/
def nBytes (c : EngineConfig) : Nat := widthOf c * heightOf c / 2

/-- WMAX, the largest legal WIDTH (R5). -/
def wMax (c : EngineConfig) : Nat :=
  match c.colAddrMode with
  | .pixel => 256
  | .pair => 512

/-- The configurations the engine accepts at reset (R190). -/
def legalConfig (c : EngineConfig) : Bool :=
  widthOf c % 2 == 0 && decide (2 ≤ widthOf c) && decide (widthOf c ≤ wMax c)
    && decide (1 ≤ heightOf c) && decide (heightOf c ≤ 256)
    && c.opc.colLow.extractLsb' 0 4 == 0#4 && c.opc.colHigh.extractLsb' 0 4 == 0#4
    && decide (1 ≤ c.teBits.toNat) && decide (c.teBits.toNat ≤ 32)

/-- Linear pixel index (R80). -/
def pixelIndex (c : EngineConfig) (x y : Nat) : Nat := x + y * widthOf c

/-- Byte index of a pixel index (R81). -/
def byteIndex (i : Nat) : Nat := i * 4 / 8

/-- Nibble shift of a pixel index (R82): an even index is the high nibble. -/
def nibbleShift (i : Nat) : Nat := if i % 2 = 0 then 4 else 0

/-- In-bounds predicate (R83): x and y separately. -/
def inBounds (c : EngineConfig) (x y : Nat) : Bool := decide (x < widthOf c) && decide (y < heightOf c)

/-- The nibble of `b` at `shift`, in bits 7:4 of a byte (R84). -/
def nibbleOut (b : Byte) (shift : Nat) : Byte := ((b >>> shift) &&& 0x0F#8) <<< 4

/-- `b` with its nibble at `shift` replaced by v[7:4] (R85). -/
def nibbleIn (b : Byte) (shift : Nat) (v : Byte) : Byte := (b &&& ~~~(0x0F#8 <<< shift)) ||| ((v >>> 4) <<< shift)

/-- The byte with v[7:4] in both nibbles (R100). -/
def packedByte (v : Byte) : Byte := (v &&& 0xF0#8) ||| ((v &&& 0xF0#8) >>> 4)

/-- COL(x'): the column cursor value of a window whose left edge is pixel x' (R115). -/
def columnValue (c : EngineConfig) (x : Nat) : Nat :=
  match c.colAddrMode with
  | .pixel => x
  | .pair => x / 2

end Sys2Proof.Machine
end

