-- ==== Sys2Proof/Machine/Ops.lean ====
section
/-! DEFINITION. The shared operations: the buffer memory (R10, R26, R40 to R43), the response (R10, R66), taking each of the
four exceptions (R170 to R178), and running a sequence of downstream transactions (R10 `emit`, R27, R53, R174). -/

namespace Sys2Proof.Machine

/-! ### The memory -/

/-- The canonical form: addresses strictly rising, no entry 0x00. -/
def Memory.wf : Memory → Bool
  | [] => true
  | c :: m => (c.2 != 0#8) && m.all (fun d => decide (c.1 < d.1)) && Memory.wf m

/-- The byte at an address; 0x00 where nothing is listed (R26). -/
def Memory.read : Memory → Nat → Byte
  | [], _ => 0#8
  | c :: m, a => if c.1 = a then c.2 else Memory.read m a

/-- Write one byte, keeping the canonical form: writing 0x00 removes the entry. -/
def Memory.write : Memory → Nat → Byte → Memory
  | [], a, b => if b = 0#8 then [] else [(a, b)]
  | c :: m, a, b =>
    if a < c.1 then
      if b = 0#8 then c :: m else (a, b) :: c :: m
    else if a = c.1 then
      if b = 0#8 then m else (a, b) :: m
    else c :: Memory.write m a b

/-- `for a in 0..n-1: buf[a] <- p` (R100). Bytes at or above `n` stay. -/
def Memory.fill (m : Memory) (n : Nat) (p : Byte) : Memory :=
  (if p = 0#8 then [] else (List.range n).map (fun a => (a, p))) ++ m.filter (fun c => decide (n ≤ c.1))

/-- `buf[a]`, for 0 ≤ a < N_BYTES only (R10). -/
def State.bufRead (s : State) (a : Nat) : Option Byte :=
  if a < nBytes s.config then some (Memory.read s.buf a) else none

/-- `buf[a] <- b`, for 0 ≤ a < N_BYTES only (R10). -/
def State.bufWrite (s : State) (a : Nat) (b : Byte) : Option State :=
  if a < nBytes s.config then some { s with buf := Memory.write s.buf a b } else none

/-- `MemRead(a, n)`: n bytes, ascending; [] when n = 0 (R10, R43). -/
def State.memRead (s : State) (a n : Nat) : Option (List Byte) :=
  if n = 0 ∨ a + n ≤ nBytes s.config then some ((List.range n).map (fun k => Memory.read s.buf (a + k))) else none

/-- BUSY (R25): a request is being executed, or the engine is FAULTED. Derived, not stored. -/
def State.busy (s : State) : Bool := s.op.isSome || s.fault != faultNone

/-- Whether a downstream transaction awaits its answer (R29). -/
def State.awaiting (s : State) : Bool :=
  match s.op with
  | some o => o.pending
  | none => false

/-! ### Ending an operation -/

/-- `respond(status, value, err)` (R10, R66): the response is sent and no operation is in progress. -/
def State.respond (s : State) (status : Status) (value : BitVec 16) (err : BitVec 32) : State :=
  { s with op := none, responses := s.responses ++ [responseWord status value err] }

/-- Taking IllegalOp (R171): the response, and nothing else. -/
def raiseIllegalOp (s : State) : State := s.respond .illegalOp 0#16 0#32

/-- Taking OutOfBounds: R172 when CHECKED = 1, R173 when CHECKED = 0. The engine is FAULTED from here on (R175). -/
def raiseOutOfBounds (s : State) : State :=
  if s.config.checked then
    { s.respond .contractViolation 0#16 0#32 with fault := faultContractViolation }
  else
    { s with op := none, fault := faultUndefinedAccess }

/-- Taking TransportError(e) (R174): the response carries the code, the rest of the sequence is dropped. -/
def raiseTransportError (e : BitVec 32) (s : State) : State := s.respond .transportError 0#16 e

/-! ### Downstream transactions -/

/-- Issue transaction `t`, the one at position `k` of the operation `i` (R10, R27, R29). -/
def State.send (s : State) (i : Instr) (k : Nat) (t : Transaction) : State :=
  { s with op := some ⟨i, k, true⟩, downstream := s.downstream ++ [.sent t] }

/-- Wait for the outstanding transaction's answer (R10, R27): OK goes on with `onOk`; ERR(e) raises TransportError(e)
(R174); with no answer the engine stays where it is (R197). -/
def awaitAnswer (onOk : State → State) (s : State) : State :=
  match s.iface with
  | .answer .ok :: rest =>
    onOk { s with iface := rest, downstream := s.downstream ++ [.answered .ok] }
  | .answer (.err code) :: rest =>
    raiseTransportError (portErrorCode s.config code)
      { s with iface := rest, downstream := s.downstream ++ [.answered (.err (portErrorCode s.config code))] }
  | .late _ :: rest => { s with iface := rest }
  | .silent :: rest => { s with iface := rest }
  | .hold :: rest => { s with iface := rest }
  | [] => s

/-- Run the rest `ts` of the transaction sequence of operation `i`, whose first entry is at position `k` (R27, R29, R53):
each transaction is issued only after the one before it was answered OK. The operation ends with `respond(OK, 0, 0)`
(R10). It stays in progress where the downstream script holds it (log 1, 11). -/
def runTransactions (i : Instr) : List Transaction → Nat → State → State
  | [], _, s => s.respond .ok 0#16 0#32
  | t :: ts, k, s =>
    match s.iface with
    | .hold :: rest => { s with iface := rest, op := some ⟨i, k, false⟩ }
    | _ => awaitAnswer (runTransactions i ts (k + 1)) (s.send i k t)

/-- Start a multi-transaction operation: `none` is a sequence that would read a byte outside the buffer (log 9). -/
def startOperation (i : Instr) (sequence : Option (List Transaction)) (s : State) : Host.Outcome State Fault Refusal :=
  match sequence with
  | none => .fault .noSuchByte
  | some ts => .next (runTransactions i ts 0 s)

/-! ### Reset -/

/-- The host resets the engine with a legal configuration (R190, R191): every piece of the engine's state takes its reset
value. The operation in progress gets no response, and a transaction in flight stays unanswered; that an operation was
abandoned is recorded (D24, log 12), and so is that the engine was FAULTED (D17, I1, I2, log 21). What the run has been
observed to do (R201) and what the neighbours will do is not the engine's to change. -/
def applyReset (c : EngineConfig) (s : State) : State :=
  { State.resetWith c with
    responses := s.responses
    downstream := if s.awaiting then s.downstream ++ [.abandoned] else s.downstream
    abandoned := s.abandoned || s.op.isSome
    violated := s.violated || s.fault != faultNone
    host := s.host
    iface := s.iface }

end Sys2Proof.Machine
end

