-- ==== Sys2Proof/Machine/Commands.lean ====
section
/-! DEFINITION. The abstract controller commands (R141) and their lowering to CMD transactions (R143). -/

namespace Sys2Proof.Machine

/-- The controller commands the engine emits (R141). -/
inductive AbstractCommand where
  | displayOff
  | displayOn
  | setCol (c : Byte)
  | setRow (r : Byte)
  | startLine
  | remap (on : Bool)
  | mux (m : Byte)
  | scanDir (d : ScanDir)
  | offset
  | contrast (c : Byte)
  | entireDisplayOn
  | polarity (inverted : Bool)
  deriving DecidableEq, Repr

/-- The low nibble of a byte, in bits 3:0. -/
def lowNibble (b : Byte) : Byte := b &&& 0x0F#8

/-- The high nibble of a byte, in bits 3:0. -/
def highNibble (b : Byte) : Byte := b >>> 4

/-- `lower(cmd)`: the one CMD transaction that carries a command (R143). -/
def lower (o : Opcodes) : AbstractCommand → Transaction
  | .displayOff => .cmd o.displayOff []
  | .displayOn => .cmd o.displayOn []
  | .setCol c => .cmd (o.colLow ||| lowNibble c) [o.colHigh ||| highNibble c]
  | .setRow r => .cmd o.rowAddr [r]
  | .startLine => .cmd o.startLine []
  | .remap true => .cmd o.remapOn []
  | .remap false => .cmd o.remapOff []
  | .mux m => .cmd o.muxRatio [m]
  | .scanDir .scanNormal => .cmd o.scanNormal []
  | .scanDir .scanRemapped => .cmd o.scanRemapped []
  | .offset => .cmd o.displayOffset [0x00#8]
  | .contrast c => .cmd o.contrast [c]
  | .entireDisplayOn => .cmd o.entireOn []
  | .polarity false => .cmd o.normal []
  | .polarity true => .cmd o.inverted []

end Sys2Proof.Machine
end

