-- ==== Sys2Proof/Machine/Window.lean ====
section
/-! DEFINITION. The window encoder of 42_flush.md: a rectangle becomes a list of jobs (R111 to R118), and a job becomes three
transactions (R115). -/

namespace Sys2Proof.Machine

/-- A dirty window (x', y', w', h') (R111). -/
structure Window where
  x : Nat
  y : Nat
  w : Nat
  h : Nat
  deriving DecidableEq, Repr

/-- A job (c, r, off, n): column value, row, buffer offset, byte count (R115). -/
structure Job where
  col : Nat
  row : Nat
  off : Nat
  len : Nat
  deriving DecidableEq, Repr

/-- `align` (R113): a left edge on a low nibble moves one pixel left, and the width grows by one. -/
def alignLeft (c : EngineConfig) (x y w : Nat) : Nat × Nat :=
  if nibbleShift (pixelIndex c x y) = 0 then (x - 1, w + 1) else (x, w)

/-- The dirty window of a rectangle, or none when it lies outside (R111, R112, R114). -/
def dirtyWindow (c : EngineConfig) (x y w h : Nat) : Option Window :=
  if widthOf c ≤ x ∨ heightOf c ≤ y then none
  else
    let aligned := alignLeft c x y w
    some ⟨aligned.1, y, min aligned.2 (widthOf c - aligned.1), min h (heightOf c - y)⟩

/-- The job of row `r` with `n` bytes, in a window whose left edge is `x` (R115, R118). -/
def jobAt (c : EngineConfig) (x r n : Nat) : Job := ⟨columnValue c x, r, byteIndex (pixelIndex c x r), n⟩

/-- JOBS: one job on the full-width path (R116), one per row otherwise (R117). -/
def windowJobs (c : EngineConfig) (d : Window) : List Job :=
  if d.w = widthOf c then [jobAt c d.x d.y (d.w * d.h * 4 / 8)]
  else (List.range d.h).map (fun k => jobAt c d.x (d.y + k) ((d.w * 4 + 4) / 8))

/-- WINDOW(x, y, w, h) (R111). -/
def windowEncode (c : EngineConfig) (x y w h : Nat) : Option (Window × List Job) :=
  match dirtyWindow c x y w h with
  | none => none
  | some d => some (d, windowJobs c d)

/-- `emit_job` (R115): SetCol, SetRow, DATA; none when the bytes are not all in the buffer. -/
def jobTransactions (s : State) (j : Job) : Option (List Transaction) :=
  match s.memRead j.off j.len with
  | none => none
  | some payload =>
    some [lower s.config.opc (.setCol (BitVec.ofNat 8 j.col)), lower s.config.opc (.setRow (BitVec.ofNat 8 j.row)),
      .data payload]

/-- The transactions of a list of jobs, in list order (R119). -/
def jobListTransactions (s : State) : List Job → Option (List Transaction)
  | [] => some []
  | j :: js =>
    match jobTransactions s j with
    | none => none
    | some ts =>
      match jobListTransactions s js with
      | none => none
      | some rest => some (ts ++ rest)

end Sys2Proof.Machine
end

