-- ==== Sys2Proof/Machine/Flush.lean ====
section
/-! DEFINITION. FLUSH and PARTIAL_FLUSH (R110, R119): the transaction sequence of each, and its meaning. -/

namespace Sys2Proof.Machine

/-- FLUSH's one job: the whole buffer at the origin (R110). -/
def flushJob (c : EngineConfig) : Job := ⟨columnValue c 0, 0, 0, nBytes c⟩

/-- The three transactions of FLUSH (R110). -/
def flushSequence (s : State) : Option (List Transaction) := jobTransactions s (flushJob s.config)

/-- The transactions of PARTIAL_FLUSH: none at all when WINDOW is NONE (R112), the jobs' otherwise (R119). -/
def partialFlushSequence (x y w h : Nat) (s : State) : Option (List Transaction) :=
  match windowEncode s.config x y w h with
  | none => some []
  | some dj => jobListTransactions s dj.2

/-- FLUSH (R110). -/
def execFlush (s : State) : Host.Outcome State Fault Refusal := startOperation .flush (flushSequence s) s

/-- PARTIAL_FLUSH (R119). -/
def execPartialFlush (x y w h : Nat) (s : State) : Host.Outcome State Fault Refusal :=
  startOperation (.partialFlush x y w h) (partialFlushSequence x y w h s) s

end Sys2Proof.Machine
end

