-- ==== Sys2Proof/Machine/Controller.lean ====
section
/-! DEFINITION. INIT_DISPLAY and the single-command operations (R144 to R149). -/

namespace Sys2Proof.Machine

/-- Steps 1 to 13 of INIT_DISPLAY, as commands (R144). -/
def initCommands (c : EngineConfig) : List AbstractCommand :=
  [.displayOff,
   .setRow 0#8,
   .setCol (BitVec.ofNat 8 (columnValue c 0)),
   .startLine,
   .remap true,
   .remap false,
   .mux (BitVec.ofNat 8 (heightOf c - 1)),
   .scanDir c.initScanDir,
   .offset,
   .contrast c.defaultContrast,
   .entireDisplayOn,
   .polarity false,
   .displayOn]

/-- The 16 transactions of INIT_DISPLAY: the commands, then the FLUSH job (R144). -/
def initSequence (s : State) : Option (List Transaction) :=
  match jobTransactions s (flushJob s.config) with
  | none => none
  | some ts => some ((initCommands s.config).map (lower s.config.opc) ++ ts)

/-- The one transaction of DISPLAY_ON (R146). -/
def displayOnSequence (s : State) : Option (List Transaction) := some [lower s.config.opc .displayOn]

/-- The one transaction of DISPLAY_OFF (R147). -/
def displayOffSequence (s : State) : Option (List Transaction) := some [lower s.config.opc .displayOff]

/-- The one transaction of SET_CONTRAST (R148). -/
def setContrastSequence (c : Byte) (s : State) : Option (List Transaction) := some [lower s.config.opc (.contrast c)]

/-- The one transaction of SET_INVERTED (R149). -/
def setInvertedSequence (b : Bool) (s : State) : Option (List Transaction) := some [lower s.config.opc (.polarity b)]

/-- INIT_DISPLAY (R144). -/
def execInitDisplay (s : State) : Host.Outcome State Fault Refusal := startOperation .initDisplay (initSequence s) s

/-- DISPLAY_ON (R146). -/
def execDisplayOn (s : State) : Host.Outcome State Fault Refusal := startOperation .displayOn (displayOnSequence s) s

/-- DISPLAY_OFF (R147). -/
def execDisplayOff (s : State) : Host.Outcome State Fault Refusal := startOperation .displayOff (displayOffSequence s) s

/-- SET_CONTRAST (R148). -/
def execSetContrast (c : Byte) (s : State) : Host.Outcome State Fault Refusal :=
  startOperation (.setContrast c) (setContrastSequence c s) s

/-- SET_INVERTED (R149). -/
def execSetInverted (b : Bool) (s : State) : Host.Outcome State Fault Refusal :=
  startOperation (.setInverted b) (setInvertedSequence b s) s

end Sys2Proof.Machine
end

