-- ==== Sys2Proof/Machine/Pixel.lean ====
section
/-! DEFINITION. GET_PIXEL and SET_PIXEL (R84, R85), and the pixel write that PARTIAL_FILL shares (R101). -/

namespace Sys2Proof.Machine

/-- The result of visiting pixels for writing. -/
inductive Visit where
  /-- Every visited pixel was written. -/
  | done (s : State)
  /-- A pixel was out of bounds; the ones before it are written in `s`. -/
  | outOfBounds (s : State)
  /-- An address outside the buffer (log 9). -/
  | noSuchByte
  deriving DecidableEq, Repr

/-- Write pixel (x, y) by read-modify-write (R85). -/
def visitPixel (v : Byte) (x y : Nat) (s : State) : Visit :=
  if inBounds s.config x y then
    let i := pixelIndex s.config x y
    match s.bufRead (byteIndex i) with
    | none => .noSuchByte
    | some b =>
      match s.bufWrite (byteIndex i) (nibbleIn b (nibbleShift i) v) with
      | none => .noSuchByte
      | some s' => .done s'
  else .outOfBounds s

/-- The end of a writing operation: OK, or OutOfBounds taken (R85, R101, R172, R173). -/
def finishVisit : Visit → Host.Outcome State Fault Refusal
  | .done s => .next (s.respond .ok 0#16 0#32)
  | .outOfBounds s => .next (raiseOutOfBounds s)
  | .noSuchByte => .fault .noSuchByte

/-- GET_PIXEL (R84). -/
def execGetPixel (x y : Nat) (s : State) : Host.Outcome State Fault Refusal :=
  if inBounds s.config x y then
    let i := pixelIndex s.config x y
    match s.bufRead (byteIndex i) with
    | none => .fault .noSuchByte
    | some b => .next (s.respond .ok ((nibbleOut b (nibbleShift i)).setWidth 16) 0#32)
  else .next (raiseOutOfBounds s)

/-- SET_PIXEL (R85). -/
def execSetPixel (x y : Nat) (v : Byte) (s : State) : Host.Outcome State Fault Refusal := finishVisit (visitPixel v x y s)

end Sys2Proof.Machine
end

