-- ==== Sys2Proof/Machine/Fill.lean ====
section
/-! DEFINITION. FILL and PARTIAL_FILL (R100, R101). -/

namespace Sys2Proof.Machine

/-- Write `n` pixels of row `y` from `x` on, left to right, up to the first one out of bounds (R101). -/
def visitRow (v : Byte) (y : Nat) : Nat → Nat → State → Visit
  | 0, _, s => .done s
  | n + 1, x, s =>
    match visitPixel v x y s with
    | .done s' => visitRow v y n (x + 1) s'
    | .outOfBounds s' => .outOfBounds s'
    | .noSuchByte => .noSuchByte

/-- Write `n` rows of `w` pixels from (x, y) on, top to bottom (R101, row-major). -/
def visitRows (v : Byte) (x w : Nat) : Nat → Nat → State → Visit
  | 0, _, s => .done s
  | n + 1, y, s =>
    match visitRow v y w x s with
    | .done s' => visitRows v x w n (y + 1) s'
    | .outOfBounds s' => .outOfBounds s'
    | .noSuchByte => .noSuchByte

/-- FILL (R100). -/
def execFill (v : Byte) (s : State) : Host.Outcome State Fault Refusal :=
  .next ({ s with buf := Memory.fill s.buf (nBytes s.config) (packedByte v) }.respond .ok 0#16 0#32)

/-- PARTIAL_FILL (R101). -/
def execPartialFill (x y w h : Nat) (v : Byte) (s : State) : Host.Outcome State Fault Refusal :=
  finishVisit (visitRows v x w h y s)

end Sys2Proof.Machine
end

