-- ==== Sys2Proof/Machine/Query.lean ====
section
/-! DEFINITION. The queries GET_WIDTH and GET_HEIGHT (R150, R151). -/

namespace Sys2Proof.Machine

/-- GET_WIDTH (R150). -/
def execGetWidth (s : State) : Host.Outcome State Fault Refusal := .next (s.respond .ok s.config.width 0#32)

/-- GET_HEIGHT (R151). -/
def execGetHeight (s : State) : Host.Outcome State Fault Refusal := .next (s.respond .ok s.config.height 0#32)

end Sys2Proof.Machine
end

