-- ==== Sys2Proof/Machine/Dispatch.lean ====
section
/-! DEFINITION. One arm per constructor of Instr, each a call of that operation's meaning. -/

namespace Sys2Proof.Machine

def exec (i : Instr) (s : State) : Host.Outcome State Fault Refusal :=
  match i with
  | .getWidth => Sys2Proof.Machine.execGetWidth s
  | .getHeight => Sys2Proof.Machine.execGetHeight s
  | .getPixel x y => Sys2Proof.Machine.execGetPixel x y s
  | .setPixel x y v => Sys2Proof.Machine.execSetPixel x y v s
  | .fill v => Sys2Proof.Machine.execFill v s
  | .partialFill x y w h v => Sys2Proof.Machine.execPartialFill x y w h v s
  | .flush => Sys2Proof.Machine.execFlush s
  | .partialFlush x y w h => Sys2Proof.Machine.execPartialFlush x y w h s
  | .initDisplay => Sys2Proof.Machine.execInitDisplay s
  | .displayOn => Sys2Proof.Machine.execDisplayOn s
  | .displayOff => Sys2Proof.Machine.execDisplayOff s
  | .setContrast c => Sys2Proof.Machine.execSetContrast c s
  | .setInverted b => Sys2Proof.Machine.execSetInverted b s

end Sys2Proof.Machine
end

