-- ==== Sys2Proof/Machine/Resume.lean ====
section
/-! DEFINITION. What the engine does without a new request: it goes on with the operation in progress (R29, R53), or stays as
it is (R175, R197). -/

namespace Sys2Proof.Machine

/-- The transaction sequence an operation's rule fixes (R29, R110, R119, R144 to R149); none of the pixel, fill and query
operations has any (R49, R150, R151). -/
def sequenceOf (i : Instr) (s : State) : Option (List Transaction) :=
  match i with
  | .getWidth => some []
  | .getHeight => some []
  | .getPixel _ _ => some []
  | .setPixel _ _ _ => some []
  | .fill _ => some []
  | .partialFill _ _ _ _ _ => some []
  | .flush => flushSequence s
  | .partialFlush x y w h => partialFlushSequence x y w h s
  | .initDisplay => initSequence s
  | .displayOn => displayOnSequence s
  | .displayOff => displayOffSequence s
  | .setContrast c => setContrastSequence c s
  | .setInverted b => setInvertedSequence b s

/-- Go on with operation `o` at its position: wait for the outstanding answer, or issue the next transaction. -/
def resumeOperation (o : Operation) (s : State) : Host.Outcome State Fault Refusal :=
  match sequenceOf o.request s with
  | none => .fault .noSuchByte
  | some ts =>
    if o.pending then
      .next (awaitAnswer (runTransactions o.request (ts.drop (o.step + 1)) (o.step + 1)) s)
    else
      .next (runTransactions o.request (ts.drop o.step) o.step s)

/-- The engine's own move: nothing while FAULTED (R175), nothing while idle (R177), otherwise the operation goes on. -/
def engineMove (s : State) : Host.Outcome State Fault Refusal :=
  if s.fault = faultNone then
    match s.op with
    | none => .next s
    | some o => resumeOperation o s
  else .next s

/-- The host resets the engine: an illegal configuration is refused (R190). -/
def hostReset (c : EngineConfig) (s : State) : Host.Outcome State Fault Refusal :=
  if legalConfig c then .next (applyReset c s) else .refused .illegalConfiguration

/-- The first input of the host's script is taken. -/
def State.dropHost (s : State) : State := { s with host := s.host.tail }

end Sys2Proof.Machine
end

