-- ==== Sys2Proof/Machine/Request.lean ====
section
/-! DEFINITION. Accepting a request word (R21, R28, R69, R176) and choosing what moves next (R195, R202). -/

namespace Sys2Proof.Machine

/-- Accept a request word: decode it, then execute the operation, or take IllegalOp (R69, R171). -/
def acceptRequest (word : RequestWord) (s : State) : Host.Outcome State Fault Refusal :=
  match decode word with
  | .ok i => exec i s
  | .error _ => .next (raiseIllegalOp s)

/-- One move of the machine. A reset may come at any time (R190). A request is accepted only when BUSY = 0, and waits
otherwise (R195). With no host move enabled, the engine goes on (log 11). The host's inputs are taken in list order, so a
reset listed behind a waiting request waits with it: DESIGN CHOICE, log 20. -/
def machineMove (s : State) : Host.Outcome State Fault Refusal :=
  match s.host with
  | .reset c :: _ => hostReset c s.dropHost
  | .request word :: _ => if s.busy then engineMove s else acceptRequest word s.dropHost
  | [] => engineMove s

end Sys2Proof.Machine
end

