-- ==== Sys2Proof/Machine/Step.lean ====
section
/-! DEFINITION. The step of the machine, and where the host's next request word goes. -/

namespace Sys2Proof.Machine

/-- One step. -/
def step (s : State) : Host.Outcome State Fault Refusal := machineMove s

/-- `s` with a request word presented as the host's very next input, and the request port ready for it (BUSY = 0, R28): no
operation in progress and FAULT = NONE. In a state that is ready already, only the request is added (log 3). -/
def State.withFetchWord (s : State) (nbits w : Nat) : State :=
  { s with
    host := .request (BitVec.ofNat 96 (w % 2 ^ nbits)) :: s.host
    op := none
    fault := faultNone }

end Sys2Proof.Machine
end

