-- ==== Sys2Proof/Machine/Assembler.lean ====
section
/-! DEFINITION. The assembly syntax of R70 and the pseudo-instructions of R71: one source line, as a list of characters,
becomes one request word, or an assembly error with no word (I22). How spaces and letter case are read is log 16. -/

namespace Sys2Proof.Machine

/-- A space or a tab. -/
def isBlank (c : Char) : Bool := c = ' ' || c = '\t'

/-- Without the blanks at either end. -/
def trimBlanks (l : List Char) : List Char := ((l.dropWhile isBlank).reverse.dropWhile isBlank).reverse

/-- Split at commas. -/
def splitCommas : List Char → List (List Char)
  | [] => [[]]
  | c :: cs =>
    if c = ',' then [] :: splitCommas cs
    else
      match splitCommas cs with
      | [] => [[c]]
      | p :: ps => (c :: p) :: ps

/-- The value of a digit, decimal or hexadecimal. -/
def digitValue (c : Char) : Option Nat :=
  if 48 ≤ c.toNat ∧ c.toNat ≤ 57 then some (c.toNat - 48)
  else if 97 ≤ c.toNat ∧ c.toNat ≤ 102 then some (c.toNat - 87)
  else if 65 ≤ c.toNat ∧ c.toNat ≤ 70 then some (c.toNat - 55)
  else none

/-- The value of a run of digits in a base, most significant first, after the value `acc`. -/
def numeralValue (base : Nat) : List Char → Nat → Option Nat
  | [], acc => some acc
  | c :: cs, acc =>
    match digitValue c with
    | none => none
    | some d => if d < base then numeralValue base cs (acc * base + d) else none

/-- An operand as written (R70). -/
inductive AsmOperand where
  | number (n : Nat)
  | flag (b : Bool)
  deriving DecidableEq, Repr

/-- A number, decimal or 0x hexadecimal, or `false` or `true` (R70). -/
def parseOperand (l : List Char) : Option AsmOperand :=
  match trimBlanks l with
  | [] => none
  | ['f', 'a', 'l', 's', 'e'] => some (.flag false)
  | ['t', 'r', 'u', 'e'] => some (.flag true)
  | '0' :: 'x' :: d :: ds => (numeralValue 16 (d :: ds) 0).map .number
  | d :: ds => (numeralValue 10 (d :: ds) 0).map .number

/-- Every operand, or none when one is no operand. -/
def parseOperands : List (List Char) → Option (List AsmOperand)
  | [] => some []
  | l :: ls =>
    match parseOperand l, parseOperands ls with
    | some o, some os => some (o :: os)
    | _, _ => none

/-- An operand that must fit a byte (R70). -/
def byteOperand (n : Nat) : Option Byte := if n ≤ 255 then some (BitVec.ofNat 8 n) else none

/-- The instruction of a mnemonic and its operands (R70), or of a pseudo-instruction (R71). -/
def assembleParts (mnemonic : String) (operands : List AsmOperand) : Option Instr :=
  match mnemonic, operands with
  | "GET_WIDTH", [] => some .getWidth
  | "GET_HEIGHT", [] => some .getHeight
  | "GET_PIXEL", [.number x, .number y] => some (.getPixel x y)
  | "SET_PIXEL", [.number x, .number y, .number v] => (byteOperand v).map (.setPixel x y)
  | "FILL", [.number v] => (byteOperand v).map .fill
  | "PARTIAL_FILL", [.number x, .number y, .number w, .number h, .number v] => (byteOperand v).map (.partialFill x y w h)
  | "FLUSH", [] => some .flush
  | "PARTIAL_FLUSH", [.number x, .number y, .number w, .number h] => some (.partialFlush x y w h)
  | "INIT_DISPLAY", [] => some .initDisplay
  | "DISPLAY_ON", [] => some .displayOn
  | "DISPLAY_OFF", [] => some .displayOff
  | "SET_CONTRAST", [.number c] => (byteOperand c).map .setContrast
  | "SET_INVERTED", [.number 0] => some (.setInverted false)
  | "SET_INVERTED", [.number 1] => some (.setInverted true)
  | "SET_INVERTED", [.flag b] => some (.setInverted b)
  | "CLEAR", [] => some (.fill 0x00#8)
  | "SET_NORMAL", [] => some (.setInverted false)
  | "SET_REVERSE", [] => some (.setInverted true)
  | _, _ => none

/-- The word of an instruction whose operands fit their fields; an assembly error otherwise (R70, I22). -/
def assembleInstr (i : Instr) : Option RequestWord := if i.wellFormed then some (encode i) else none

/-- Assemble one source line (R70, R71). -/
def assembleLine (line : List Char) : Option RequestWord :=
  let l := trimBlanks line
  let rest := trimBlanks (l.dropWhile (fun c => !isBlank c))
  match parseOperands (if rest = [] then [] else splitCommas rest) with
  | none => none
  | some os =>
    match assembleParts (String.ofList (l.takeWhile (fun c => !isBlank c))) os with
    | none => none
    | some i => assembleInstr i

end Sys2Proof.Machine
end

