-- ==== Sys2Proof/Safety.lean ====
section
/-! DEFINITION. What claims are stated in: the invariant of the machine, the observation of a run and its successful end
(R201). -/

namespace Sys2Proof.Machine

/-- A response word the engine may send (R66, R67): a status of R67, reserved bits zero, ERR zero unless the status is
TRANSPORT_ERROR. -/
def responseLegal (r : ResponseWord) : Bool :=
  decide ((statusField r).toNat ≤ 3) && reservedField r == 0#8
    && (statusField r == statusCode .transportError || errField r == 0#32)

/-- Walk the downstream port's events: at most one transaction outstanding, and an answer only to an outstanding one (R27,
R53). The result says whether one is outstanding at the end; `none` when the order is broken. -/
def portOutstanding : Bool → List PortEvent → Option Bool
  | outstanding, [] => some outstanding
  | false, .sent _ :: l => portOutstanding true l
  | true, .answered _ :: l => portOutstanding false l
  | true, .abandoned :: l => portOutstanding false l
  | _, _ :: _ => none

/-- The invariant: what holds in every state a run from a legal reset reaches. -/
structure Invariant (s : State) : Prop where
  /-- The configuration is one that reset accepts (R190, R23). -/
  config : legalConfig s.config = true
  /-- The buffer is in canonical form. -/
  bufWf : Memory.wf s.buf = true
  /-- Only bytes 0 to N_BYTES − 1 exist (R26, R40). -/
  bufBound : ∀ c ∈ s.buf, c.1 < nBytes s.config
  /-- FAULT is never 3 (R24, I5). -/
  fault : s.fault ≠ 3#2
  /-- A FAULTED engine has no operation in progress (R175). -/
  faulted : s.fault ≠ faultNone → s.op = none
  /-- An operation in progress stands at a position of its own sequence (R29). -/
  op : ∀ o, s.op = some o → ∃ ts, sequenceOf o.request s = some ts ∧ o.step < ts.length
  /-- Every response sent is a legal one (R66, R67, I4, I6). -/
  responses : ∀ r ∈ s.responses, responseLegal r = true
  /-- At most one transaction is outstanding, and `pending` says whether one is (R27, R29). -/
  port : portOutstanding false s.downstream = some s.awaiting
  /-- A transaction that a reset left unanswered belongs to an abandoned operation (R190). -/
  unanswered : PortEvent.abandoned ∈ s.downstream → s.abandoned = true

/-- The successful end of a run (R201): the host has no further request, the engine is idle with FAULT = 0 and no transaction
pending, no reset has abandoned an operation (D24: such a run has no successful end), and no reset has cleared a FAULT (D17,
I1, I2: a run with a violation, or with an undefined access, has no successful end). -/
def SuccessfulEnd (s : State) : Prop :=
  s.host = [] ∧ s.busy = false ∧ s.fault = faultNone ∧ s.op = none ∧ s.awaiting = false ∧ s.abandoned = false ∧
  s.violated = false

/-- The transactions of the port events, in order. -/
def transactionsOf (l : List PortEvent) : List Transaction :=
  l.filterMap fun e =>
    match e with
    | .sent t => some t
    | .answered _ => none
    | .abandoned => none

/-- What a run shows (R201): the responses, the downstream transactions with their answers, the final buffer. -/
structure Observation where
  responses : List ResponseWord
  downstream : List PortEvent
  buf : Memory
  deriving DecidableEq, Repr

/-- The observation of the run that led to `s` (R201). -/
def observe (s : State) : Observation := ⟨s.responses, s.downstream, s.buf⟩

/-! ### Words that claims use -/

/-- The operations that write the buffer (R26). -/
def writesBuffer : Instr → Bool
  | .getWidth => false
  | .getHeight => false
  | .getPixel _ _ => false
  | .setPixel _ _ _ => true
  | .fill _ => true
  | .partialFill _ _ _ _ _ => true
  | .flush => false
  | .partialFlush _ _ _ _ => false
  | .initDisplay => false
  | .displayOn => false
  | .displayOff => false
  | .setContrast _ => false
  | .setInverted _ => false

/-- The operations that check a pixel's bounds (R83, R170). -/
def checksBounds : Instr → Bool
  | .getWidth => false
  | .getHeight => false
  | .getPixel _ _ => true
  | .setPixel _ _ _ => true
  | .fill _ => false
  | .partialFill _ _ _ _ _ => true
  | .flush => false
  | .partialFlush _ _ _ _ => false
  | .initDisplay => false
  | .displayOn => false
  | .displayOff => false
  | .setContrast _ => false
  | .setInverted _ => false

/-- The operations that emit transactions (R170). -/
def usesPort : Instr → Bool
  | .getWidth => false
  | .getHeight => false
  | .getPixel _ _ => false
  | .setPixel _ _ _ => false
  | .fill _ => false
  | .partialFill _ _ _ _ _ => false
  | .flush => true
  | .partialFlush _ _ _ _ => true
  | .initDisplay => true
  | .displayOn => true
  | .displayOff => true
  | .setContrast _ => true
  | .setInverted _ => true

/-- The value GET_PIXEL answers for an in-bounds pixel (R80 to R82, R84). -/
def pixelAt (s : State) (x y : Nat) : Byte :=
  nibbleOut (Memory.read s.buf (byteIndex (pixelIndex s.config x y))) (nibbleShift (pixelIndex s.config x y))

/-- The Interface answers the next `n` transactions OK. -/
def okAnswers (n : Nat) : List IfaceInput := List.replicate n (.answer .ok)

/-- Transactions issued and answered OK, in order. -/
def exchanges (ts : List Transaction) : List PortEvent := ts.flatMap (fun t => [.sent t, .answered .ok])

/-- How many of the transactions are CMD transactions. -/
def commandCount : List Transaction → Nat
  | [] => 0
  | .cmd _ _ :: ts => commandCount ts + 1
  | .data _ :: ts => commandCount ts

/-- How many of the transactions are DATA transactions. -/
def dataCount : List Transaction → Nat
  | [] => 0
  | .cmd _ _ :: ts => dataCount ts
  | .data _ :: ts => dataCount ts + 1

/-- How many bytes the DATA transactions carry in all. -/
def dataBytes : List Transaction → Nat
  | [] => 0
  | .cmd _ _ :: ts => dataBytes ts
  | .data p :: ts => p.length + dataBytes ts

/-- What an out-of-bounds access leaves (R172, R173): FAULT = 1 and the response CONTRACT_VIOLATION when CHECKED = 1, FAULT
= 2 and no response when CHECKED = 0. -/
def outOfBoundsEffect (s : State) : State :=
  if s.config.checked then { s with op := none, fault := 1#2, responses := s.responses ++ [0x0000000000000003#64] }
  else { s with op := none, fault := 2#2 }

/-- Instruction `i`, executed in `s`, runs exactly the transaction sequence `ts` (R10, R27, R174): when every transaction is
answered OK, all of them are emitted in order and the response is OK. When the one at position `n` is answered ERR(e), with
`e` a code of TE_BITS bits, those after it are not emitted and the response is TRANSPORT_ERROR with ERR = zext_32(e).
Nothing else changes. -/
def RunsSequence (i : Instr) (s : State) (ts : List Transaction) : Prop :=
  (∀ rest, s.iface = okAnswers ts.length ++ rest →
    exec i s = .next { s with
      iface := rest
      op := none
      downstream := s.downstream ++ exchanges ts
      responses := s.responses ++ [0x0000000000000000#64] }) ∧
  (∀ n t e rest, ts[n]? = some t → e.toNat < 2 ^ s.config.teBits.toNat →
    s.iface = okAnswers n ++ .answer (.err e) :: rest →
    exec i s = .next { s with
      iface := rest
      op := none
      downstream := s.downstream ++ exchanges (ts.take n) ++ [.sent t, .answered (.err e)]
      responses := s.responses ++ [e ++ 0x00000001#32] })

end Sys2Proof.Machine
end

