-- ==== Sys2Proof/Certificates/Slice0/Obligations.lean ====
section
/-! DEFINITION. The statements for the provers. Each docstring names the rule of spec/ it formalises. -/

open Sys2Proof Sys2Proof.Machine

/-! ### Encoding -/

/-- Decoding the word of a well-formed instruction gives the instruction back (R61 to R64, R69, R70). -/
def Obligations.DecodeOfEncodeReturnsTheInstruction : Prop :=
  ∀ i : Instr, i.wellFormed = true → decode (encode i) = .ok i

/-- A word that decodes is the word of the instruction it decodes to (R61 to R65): every other bit is zero. -/
def Obligations.EncodeOfDecodeReturnsTheWord : Prop :=
  ∀ (word : RequestWord) (i : Instr), decode word = .ok i → i.wellFormed = true ∧ encode i = word

/-- R64: a word is the operation of a row exactly when `(word & mask) == match`, with the rows' masks written out. -/
def Obligations.WordIsTheOperationWhenItMatchesItsRow : Prop :=
  ∀ (word : RequestWord) (row : Byte × RequestWord),
    row ∈ [(0x01#8, 0xFFFFFFFFFFFFFFFFFFFFFFFF#96), (0x02#8, 0xFFFFFFFFFFFFFFFFFFFFFFFF#96),
      (0x10#8, 0xFFFFFFFFFFFF00000000FFFF#96), (0x11#8, 0xFFFFFFFFFFFF0000000000FF#96),
      (0x20#8, 0xFFFFFFFFFFFFFFFFFFFF00FF#96), (0x21#8, 0xFFFF000000000000000000FF#96),
      (0x30#8, 0xFFFFFFFFFFFFFFFFFFFFFFFF#96), (0x31#8, 0xFFFF0000000000000000FFFF#96),
      (0x40#8, 0xFFFFFFFFFFFFFFFFFFFFFFFF#96), (0x41#8, 0xFFFFFFFFFFFFFFFFFFFFFFFF#96),
      (0x42#8, 0xFFFFFFFFFFFFFFFFFFFFFFFF#96), (0x43#8, 0xFFFFFFFFFFFFFFFFFFFF00FF#96),
      (0x44#8, 0xFFFFFFFFFFFFFFFFFFFFFEFF#96)] →
    ((∃ i, decode word = .ok i ∧ i.opcode = row.1) ↔ word &&& row.2 = row.1.setWidth 96)

/-- R65: an undefined OP, or a bit set outside the fields of the operation's format, makes a word illegal, and nothing else
does. -/
def Obligations.IllegalWordsAreThoseOfRuleR65 : Prop :=
  ∀ word : RequestWord, (∃ e, decode word = .error e) ↔
    let f := splitWord word
    f.op ∉ [0x01#8, 0x02#8, 0x10#8, 0x11#8, 0x20#8, 0x21#8, 0x30#8, 0x31#8, 0x40#8, 0x41#8, 0x42#8, 0x43#8, 0x44#8]
    ∨ f.rsv ≠ 0#16
    ∨ (f.op ∉ [0x11#8, 0x20#8, 0x21#8, 0x43#8, 0x44#8] ∧ f.v ≠ 0#8)
    ∨ (f.op = 0x44#8 ∧ f.v.extractLsb' 1 7 ≠ 0#7)
    ∨ (f.op ∉ [0x10#8, 0x11#8, 0x21#8, 0x31#8] ∧ (f.x ≠ 0#16 ∨ f.y ≠ 0#16))
    ∨ (f.op ∉ [0x21#8, 0x31#8] ∧ (f.w ≠ 0#16 ∨ f.h ≠ 0#16))

/-- Words written out from the encodings of R61 to R64 decode to the operations they stand for. -/
def Obligations.WordsOfTheSpecDecode : Prop :=
  decode 0x000000000000000000000001#96 = .ok .getWidth ∧
  decode 0x000000000000003F00FF0010#96 = .ok (.getPixel 255 63) ∧
  decode 0x00000000000000000002_9C11#96 = .ok (.setPixel 2 0 0x9C#8) ∧
  decode 0x00000000000000000000_3720#96 = .ok (.fill 0x37#8) ∧
  decode 0x00000002000300010002_AB21#96 = .ok (.partialFill 2 1 3 2 0xAB#8) ∧
  decode 0x00000002000400020003_0031#96 = .ok (.partialFlush 3 2 4 2) ∧
  decode 0x000000000000000000000144#96 = .ok (.setInverted true)

/-- R66 and R67: where each field of a response word stands, and the four status codes. -/
def Obligations.ResponseWordHasTheFieldsOfRuleR66 : Prop :=
  ∀ (st : Status) (v : BitVec 16) (e : BitVec 32),
    (responseWord st v e).extractLsb' 0 8 =
      (match st with | .ok => 0x00#8 | .transportError => 0x01#8 | .illegalOp => 0x02#8 | .contractViolation => 0x03#8) ∧
    (responseWord st v e).extractLsb' 8 16 = v ∧
    (responseWord st v e).extractLsb' 24 8 = 0x00#8 ∧
    (responseWord st v e).extractLsb' 32 32 = e

/-- R71: each pseudo-instruction expands to the one word the table gives. -/
def Obligations.PseudoInstructionsExpand : Prop :=
  assembleLine "CLEAR".toList = assembleLine "FILL 0x00".toList ∧
  assembleLine "CLEAR".toList = some 0x000000000000000000000020#96 ∧
  assembleLine "SET_NORMAL".toList = assembleLine "SET_INVERTED 0".toList ∧
  assembleLine "SET_NORMAL".toList = some 0x000000000000000000000044#96 ∧
  assembleLine "SET_REVERSE".toList = assembleLine "SET_INVERTED 1".toList ∧
  assembleLine "SET_REVERSE".toList = some 0x000000000000000000000144#96

/-- R70: an operand that does not fit its field is an assembly error, and a word that is produced is the word of the
operands written. Said for every operation with numeric operands. -/
def Obligations.AssemblerRefusesWhatDoesNotFit : Prop :=
  ∀ x y w h v : Nat,
    ((assembleParts "GET_PIXEL" [.number x, .number y]).bind assembleInstr =
      if x ≤ 65535 ∧ y ≤ 65535 then some (encode (.getPixel x y)) else none) ∧
    ((assembleParts "SET_PIXEL" [.number x, .number y, .number v]).bind assembleInstr =
      if x ≤ 65535 ∧ y ≤ 65535 ∧ v ≤ 255 then some (encode (.setPixel x y (BitVec.ofNat 8 v))) else none) ∧
    ((assembleParts "FILL" [.number v]).bind assembleInstr =
      if v ≤ 255 then some (encode (.fill (BitVec.ofNat 8 v))) else none) ∧
    ((assembleParts "PARTIAL_FILL" [.number x, .number y, .number w, .number h, .number v]).bind assembleInstr =
      if x ≤ 65535 ∧ y ≤ 65535 ∧ w ≤ 65535 ∧ h ≤ 65535 ∧ v ≤ 255 then
        some (encode (.partialFill x y w h (BitVec.ofNat 8 v)))
      else none) ∧
    ((assembleParts "PARTIAL_FLUSH" [.number x, .number y, .number w, .number h]).bind assembleInstr =
      if x ≤ 65535 ∧ y ≤ 65535 ∧ w ≤ 65535 ∧ h ≤ 65535 then some (encode (.partialFlush x y w h)) else none) ∧
    ((assembleParts "SET_CONTRAST" [.number v]).bind assembleInstr =
      if v ≤ 255 then some (encode (.setContrast (BitVec.ofNat 8 v))) else none) ∧
    ((assembleParts "SET_INVERTED" [.number v]).bind assembleInstr =
      if v ≤ 1 then some (encode (.setInverted (decide (v = 1)))) else none)

/-! ### The step -/

/-- A ready engine executes the request the host presents: `step` is `exec` of the decoded instruction, in the state with the
request taken off the host's script (R21, R28, R69). The host's `withFetchWord` presents a word to any state. -/
def Obligations.StepRunsTheDecodedRequest : Prop :=
  (∀ (s : State) (word : RequestWord) (rest : List HostInput) (i : Instr),
    s.busy = false → s.host = .request word :: rest → decode word = .ok i →
    step s = exec i { s with host := rest }) ∧
  (∀ (s : State) (w : Nat) (i : Instr), decode (BitVec.ofNat 96 w) = .ok i →
    step (s.withFetchWord 96 w) = exec i { s with op := none, fault := 0#2 })

/-- R171: an illegal word is answered ILLEGAL_OP. It changes no state, emits no transaction, and the engine stays ready. -/
def Obligations.IllegalWordIsAnsweredAndChangesNothing : Prop :=
  ∀ (s : State) (word : RequestWord) (rest : List HostInput),
    s.busy = false → s.host = .request word :: rest → (∃ e, decode word = .error e) →
    ∃ t, step s = .next t ∧
      t = { s with host := rest, responses := s.responses ++ [0x0000000000000002#64] } ∧ t.busy = false

/-- R175: a FAULTED engine is busy and is no successful end. No step but a reset takes a request, sends a response, emits a
transaction or changes `buf` or FAULT, whatever is presented; a reset leaves FAULTED. -/
def Obligations.FaultedEngineStaysFaultedUntilReset : Prop :=
  ∀ s : State, s.fault ≠ 0#2 →
    s.busy = true ∧ ¬ SuccessfulEnd s ∧
    (∀ t, (∀ c rest, s.host ≠ .reset c :: rest) → step s = .next t →
      t.busy = true ∧ t.fault = s.fault ∧ t.buf = s.buf ∧ t.downstream = s.downstream ∧ t.responses = s.responses ∧
      t.host = s.host) ∧
    (∀ c rest t, s.host = .reset c :: rest → step s = .next t → t.fault = 0#2 ∧ t.busy = false)

/-- R191 and R33: after a reset with a legal configuration, whenever it comes, every piece of state has its reset value. Reset
emits no transaction and no response. -/
def Obligations.ResetSetsEveryPieceOfState : Prop :=
  ∀ (s : State) (c : EngineConfig) (rest : List HostInput), s.host = .reset c :: rest → legalConfig c = true →
    ∃ t, step s = .next t ∧ t.config = c ∧ (∀ a, Memory.read t.buf a = 0x00#8) ∧ t.fault = 0#2 ∧ t.op = none ∧
      t.busy = false ∧ t.awaiting = false ∧ t.responses = s.responses ∧
      transactionsOf t.downstream = transactionsOf s.downstream ∧ t.host = rest ∧ t.iface = s.iface

/-- R190: reset takes exactly the configurations that satisfy its conditions; any other is refused and leaves no state (a
refusal: log 8). -/
def Obligations.IllegalConfigurationIsRefused : Prop :=
  ∀ (s : State) (c : EngineConfig) (rest : List HostInput), s.host = .reset c :: rest →
    let legal :=
      c.width.toNat % 2 = 0 ∧ 2 ≤ c.width.toNat ∧
      c.width.toNat ≤ (if c.colAddrMode = .pixel then 256 else 512) ∧
      1 ≤ c.height.toNat ∧ c.height.toNat ≤ 256 ∧
      (∀ k < 4, c.opc.colLow.getLsbD k = false ∧ c.opc.colHigh.getLsbD k = false) ∧
      1 ≤ c.teBits.toNat ∧ c.teBits.toNat ≤ 32
    (legal → ∃ t, step s = .next t) ∧ (¬ legal → step s = .refused .illegalConfiguration)

/-- The values State.reset has: those of R33, in the reference configuration of R5. That reset latches this configuration, with
CHECKED = 1, COL_ADDR_MODE = PIXEL and TE_BITS = 32, is the model's choice (log 4); so are the empty scripts, on which the
successful end rests (log 2). -/
def Obligations.ResetStateHasTheReferenceConfiguration : Prop :=
  (∀ a, Memory.read State.reset.buf a = 0x00#8) ∧ State.reset.fault = 0#2 ∧ State.reset.op = none ∧
  State.reset.busy = false ∧ State.reset.awaiting = false ∧ State.reset.responses = [] ∧ State.reset.downstream = [] ∧
  State.reset.config.width.toNat = 256 ∧ State.reset.config.height.toNat = 64 ∧ State.reset.config.checked = true ∧
  State.reset.config.colAddrMode = .pixel ∧ State.reset.config.teBits.toNat = 32 ∧
  nBytes State.reset.config = 8192 ∧ legalConfig State.reset.config = true ∧ SuccessfulEnd State.reset

/-- R195: a request presented while BUSY = 1 waits at the port, neither dropped nor merged, and one presented while BUSY = 0 is
taken. -/
def Obligations.RequestWaitsWhileBusy : Prop :=
  ∀ (s t : State) (word : RequestWord) (rest : List HostInput), s.host = .request word :: rest → step s = .next t →
    (s.busy = true → t.host = .request word :: rest) ∧ (s.busy = false → t.host = rest)

/-- R197: with a transaction outstanding and no answer ever coming (the script is empty: log 2), the engine waits: no response,
and it stays BUSY. The step leaves the state as it is (log 7, the model's choice). -/
def Obligations.StalledTransportStallsTheEngine : Prop :=
  ∀ s : State, Invariant s → s.awaiting = true → s.iface = [] → (∀ c rest, s.host ≠ .reset c :: rest) →
    step s = .next s ∧ s.busy = true ∧ ¬ SuccessfulEnd s

/-! ### Queries and pixels -/

/-- R150 and R151: the queries answer OK with the configured width or height, and change nothing else. -/
def Obligations.QueriesAnswerTheConfiguredSize : Prop :=
  ∀ s : State,
    exec .getWidth s = .next { s with op := none, responses := s.responses ++ [0x00000000#32 ++ 0x00#8 ++ s.config.width ++ 0x00#8] } ∧
    exec .getHeight s = .next { s with op := none, responses := s.responses ++ [0x00000000#32 ++ 0x00#8 ++ s.config.height ++ 0x00#8] }

/-- R84: GET_PIXEL answers the pixel's stored nibble in VALUE[7:4], all else zero, and changes nothing else. Out of bounds, it
takes OutOfBounds. -/
def Obligations.GetPixelAnswersTheStoredNibble : Prop :=
  ∀ (s : State) (x y : Nat), legalConfig s.config = true →
    let W := s.config.width.toNat
    let H := s.config.height.toNat
    let i := x + y * W
    let b := Memory.read s.buf (i * 4 / 8)
    let value := ((b >>> (if i % 2 = 0 then 4 else 0)) &&& 0x0F#8) <<< 4
    (x < W ∧ y < H → ∃ t r, exec (.getPixel x y) s = .next t ∧
      t = { s with op := none, responses := s.responses ++ [r] } ∧
      statusField r = 0x00#8 ∧ valueField r = value.setWidth 16 ∧ reservedField r = 0x00#8 ∧ errField r = 0#32 ∧
      (valueField r).extractLsb' 0 4 = 0#4) ∧
    (¬ (x < W ∧ y < H) → exec (.getPixel x y) s = .next (outOfBoundsEffect s))

/-- R85: SET_PIXEL replaces the pixel's nibble by v[7:4], keeps the other nibble of the byte and every other byte, answers OK,
and changes nothing else. Out of bounds, it takes OutOfBounds and writes nothing. -/
def Obligations.SetPixelReplacesOneNibble : Prop :=
  ∀ (s : State) (x y : Nat) (v : Byte), legalConfig s.config = true → Memory.wf s.buf = true →
    let W := s.config.width.toNat
    let H := s.config.height.toNat
    let i := x + y * W
    let a := i * 4 / 8
    let sh := if i % 2 = 0 then 4 else 0
    (x < W ∧ y < H → ∃ t, exec (.setPixel x y v) s = .next t ∧
      Memory.read t.buf a = ((Memory.read s.buf a &&& ~~~(0x0F#8 <<< sh)) ||| ((v.extractLsb' 4 4).setWidth 8 <<< sh)) ∧
      (∀ a', a' ≠ a → Memory.read t.buf a' = Memory.read s.buf a') ∧
      t = { s with buf := t.buf, op := none, responses := s.responses ++ [0x0000000000000000#64] }) ∧
    (¬ (x < W ∧ y < H) → exec (.setPixel x y v) s = .next (outOfBoundsEffect s))

/-- R172: with CHECKED = 1 an out-of-bounds pixel access, by any of the three operations, sets FAULT = 1, answers
CONTRACT_VIOLATION, and leaves the engine FAULTED; the faulting access does not touch `buf`. -/
def Obligations.CheckedOutOfBoundsIsAContractViolation : Prop :=
  ∀ (s : State) (x y w h : Nat) (v : Byte), s.config.checked = true →
    ¬ (x < s.config.width.toNat ∧ y < s.config.height.toNat) →
    let t := { s with op := none, fault := 1#2, responses := s.responses ++ [0x0000000000000003#64] }
    exec (.getPixel x y) s = .next t ∧ exec (.setPixel x y v) s = .next t ∧
    exec (.partialFill x y (w + 1) (h + 1) v) s = .next t ∧ t.busy = true

/-- R173: with CHECKED = 0 an out-of-bounds pixel access, by any of the three operations, sets FAULT = 2 and sends no
response; the engine is FAULTED and `buf` is as before. -/
def Obligations.UncheckedOutOfBoundsSendsNoResponse : Prop :=
  ∀ (s : State) (x y w h : Nat) (v : Byte), s.config.checked = false →
    ¬ (x < s.config.width.toNat ∧ y < s.config.height.toNat) →
    let t := { s with op := none, fault := 2#2 }
    exec (.getPixel x y) s = .next t ∧ exec (.setPixel x y v) s = .next t ∧
    exec (.partialFill x y (w + 1) (h + 1) v) s = .next t ∧ t.busy = true

/-- R42: the pixel with the even linear index is bits 7:4 of its byte, the one with the odd index is bits 3:0. -/
def Obligations.EvenPixelIsTheHighNibble : Prop :=
  ∀ (s : State) (x y : Nat),
    let i := x + y * s.config.width.toNat
    let b := Memory.read s.buf (i / 2)
    pixelAt s x y = if i % 2 = 0 then b &&& 0xF0#8 else b <<< 4

/-- R41, R50, R80 to R82: an in-bounds pixel lies in byte (x + y·WIDTH)/2, inside its row's bytes and inside the buffer, and no
two in-bounds pixels share a byte and a nibble. -/
def Obligations.PixelsHaveTheirOwnNibbles : Prop :=
  ∀ (c : EngineConfig) (x y x' y' : Nat), legalConfig c = true → inBounds c x y = true → inBounds c x' y' = true →
    let W := c.width.toNat
    let a := byteIndex (pixelIndex c x y)
    a = (x + y * W) / 2 ∧ a < W * c.height.toNat / 2 ∧ y * W / 2 ≤ a ∧ a ≤ (y + 1) * W / 2 - 1 ∧
    (a = byteIndex (pixelIndex c x' y') → nibbleShift (pixelIndex c x y) = nibbleShift (pixelIndex c x' y') →
      x = x' ∧ y = y')

/-- R86: a SET_PIXEL that completes changes no other pixel. -/
def Obligations.SetPixelKeepsEveryOtherPixel : Prop :=
  ∀ (s t : State) (x y x' y' : Nat) (v : Byte), legalConfig s.config = true → Memory.wf s.buf = true →
    inBounds s.config x y = true → exec (.setPixel x y v) s = .next t →
    inBounds s.config x' y' = true → (x', y') ≠ (x, y) → pixelAt t x' y' = pixelAt s x' y'

/-- R87: after SET_PIXEL x, y, v, and as long as nothing else writes that pixel, GET_PIXEL x, y answers v & 0xF0. -/
def Obligations.GetAfterSetReturnsTheUpperNibble : Prop :=
  ∀ (s t u : State) (x y : Nat) (v : Byte), legalConfig s.config = true → Memory.wf s.buf = true →
    inBounds s.config x y = true → exec (.setPixel x y v) s = .next t →
    u.config = t.config → pixelAt u x y = pixelAt t x y →
    exec (.getPixel x y) u =
      .next { u with op := none, responses := u.responses ++ [0x00000000#32 ++ 0x0000#16 ++ (v &&& 0xF0#8) ++ 0x00#8] }

/-! ### Fills -/

/-- R100: FILL makes every byte of the buffer the value's upper nibble twice, answers OK, and changes nothing else. -/
def Obligations.FillSetsEveryByte : Prop :=
  ∀ (s : State) (v : Byte), ∃ t, exec (.fill v) s = .next t ∧
    (∀ a, a < s.config.width.toNat * s.config.height.toNat / 2 →
      Memory.read t.buf a = ((v &&& 0xF0#8) ||| ((v &&& 0xF0#8) >>> 4))) ∧
    (∀ a, s.config.width.toNat * s.config.height.toNat / 2 ≤ a → Memory.read t.buf a = Memory.read s.buf a) ∧
    t = { s with buf := t.buf, op := none, responses := s.responses ++ [0x0000000000000000#64] }

/-- R102: after FILL v, GET_PIXEL answers v & 0xF0 for every in-bounds pixel. -/
def Obligations.GetAfterFillReturnsTheUpperNibble : Prop :=
  ∀ (s t : State) (x y : Nat) (v : Byte), legalConfig s.config = true → inBounds s.config x y = true →
    exec (.fill v) s = .next t →
    exec (.getPixel x y) t =
      .next { t with op := none, responses := t.responses ++ [0x00000000#32 ++ 0x0000#16 ++ (v &&& 0xF0#8) ++ 0x00#8] }

/-- R101: PARTIAL_FILL of an in-bounds rectangle ends with every one of its pixels at v & 0xF0 and every other pixel
unchanged; a byte that holds no pixel of the rectangle is unchanged; the response is OK and nothing else changes. -/
def Obligations.PartialFillWritesExactlyTheRectangle : Prop :=
  ∀ (s : State) (x y w h : Nat) (v : Byte), legalConfig s.config = true → Memory.wf s.buf = true →
    x + w ≤ s.config.width.toNat → y + h ≤ s.config.height.toNat →
    ∃ t, exec (.partialFill x y w h v) s = .next t ∧
      (∀ x' y', inBounds s.config x' y' = true → pixelAt t x' y' =
        if x ≤ x' ∧ x' < x + w ∧ y ≤ y' ∧ y' < y + h then v &&& 0xF0#8 else pixelAt s x' y') ∧
      (∀ a, (∀ x' y', x ≤ x' → x' < x + w → y ≤ y' → y' < y + h → (x' + y' * s.config.width.toNat) / 2 ≠ a) →
        Memory.read t.buf a = Memory.read s.buf a) ∧
      t = { s with buf := t.buf, op := none, responses := s.responses ++ [0x0000000000000000#64] }

/-- R101: with w = 0 or h = 0 no pixel is visited, and the operation completes whatever x and y are. -/
def Obligations.EmptyPartialFillCompletes : Prop :=
  ∀ (s : State) (x y w h : Nat) (v : Byte), w = 0 ∨ h = 0 →
    exec (.partialFill x y w h v) s =
      .next { s with op := none, responses := s.responses ++ [0x0000000000000000#64] }

/-- R101, R178: a PARTIAL_FILL that leaves the engine takes OutOfBounds at the first pixel outside, in row-major order. The
pixels visited before it stay written, and no other pixel changes. -/
def Obligations.PartialFillStopsAtTheFirstPixelOutside : Prop :=
  ∀ (s : State) (x y w h : Nat) (v : Byte), legalConfig s.config = true → Memory.wf s.buf = true →
    0 < w → 0 < h → ¬ (x + w ≤ s.config.width.toNat ∧ y + h ≤ s.config.height.toNat) →
    ∃ t, exec (.partialFill x y w h v) s = .next t ∧
      (∀ x' y', inBounds s.config x' y' = true → pixelAt t x' y' =
        if x ≤ x' ∧ x' < x + w ∧ y ≤ y' ∧ y' < y + h ∧ (y' = y ∨ x + w ≤ s.config.width.toNat) then v &&& 0xF0#8
        else pixelAt s x' y') ∧
      t = { outOfBoundsEffect s with buf := t.buf }

/-- R49: FILL and SET_PIXEL are idempotent on `buf`: doing one twice leaves the same buffer. -/
def Obligations.FillAndSetPixelAreIdempotent : Prop :=
  ∀ (s t u : State) (x y : Nat) (v : Byte), Memory.wf s.buf = true →
    (exec (.fill v) s = .next t → exec (.fill v) t = .next u → u.buf = t.buf) ∧
    (exec (.setPixel x y v) s = .next t → exec (.setPixel x y v) t = .next u → u.buf = t.buf)

/-! ### The window encoder -/

/-- R112: WINDOW is NONE exactly when x ≥ WIDTH or y ≥ HEIGHT, and then PARTIAL_FLUSH emits no transaction and completes with
OK. The test after alignment would give the same result. -/
def Obligations.OutsideRectangleFlushesNothing : Prop :=
  ∀ (s : State) (x y w h : Nat),
    (windowEncode s.config x y w h = none ↔ s.config.width.toNat ≤ x ∨ s.config.height.toNat ≤ y) ∧
    (s.config.width.toNat ≤ x ∨ s.config.height.toNat ≤ y →
      exec (.partialFlush x y w h) s =
        .next { s with op := none, responses := s.responses ++ [0x0000000000000000#64] }) ∧
    (legalConfig s.config = true →
      (s.config.width.toNat ≤ (alignLeft s.config x y w).1 ↔ s.config.width.toNat ≤ x))

/-- R113 and R114: exactly an odd left edge is on a low nibble, in every row; it moves one pixel left and the width grows by
one. Then both sizes are clamped; the window starts at an even column and lies inside the engine. -/
def Obligations.WindowIsAlignedThenClamped : Prop :=
  ∀ (c : EngineConfig) (x y w h : Nat), legalConfig c = true → x < c.width.toNat → y < c.height.toNat →
    (nibbleShift (pixelIndex c x y) = 0 ↔ x % 2 = 1) ∧
    alignLeft c x y w = (if x % 2 = 1 then (x - 1, w + 1) else (x, w)) ∧
    ∃ d, dirtyWindow c x y w h = some d ∧ d.y = y ∧ d.h = min h (c.height.toNat - y) ∧
      (x % 2 = 0 → d.x = x ∧ d.w = min w (c.width.toNat - x)) ∧
      (x % 2 = 1 → d.x = x - 1 ∧ d.w = min (w + 1) (c.width.toNat - (x - 1))) ∧
      d.x % 2 = 0 ∧ d.x + d.w ≤ c.width.toNat ∧ d.y + d.h ≤ c.height.toNat

/-- R116 to R118: one job with the whole row block when w' = WIDTH, one job per row otherwise, each with the column, row,
offset and byte count of the rules; and which requests take the full-width path. -/
def Obligations.JobsAreThoseOfTheTwoPaths : Prop :=
  ∀ (c : EngineConfig) (x y w h : Nat) (d : Window) (jobs : List Job), legalConfig c = true →
    windowEncode c x y w h = some (d, jobs) →
    let W := c.width.toNat
    let col := if c.colAddrMode = .pixel then d.x else d.x / 2
    (d.w = W → d.x = 0 ∧ jobs = [⟨0, d.y, d.y * W / 2, W * d.h / 2⟩]) ∧
    (d.w < W → jobs.length = d.h ∧
      ∀ k, k < d.h → jobs[k]? = some ⟨col, d.y + k, (d.x + (d.y + k) * W) / 2, (d.w + 1) / 2⟩ ∧
        (d.x + (d.y + k) * W) % 2 = 0) ∧
    (d.w = W ↔ (x = 0 ∧ W ≤ w) ∨ (x = 1 ∧ W - 1 ≤ w))

/-- R121: every job's bytes lie in the buffer; on the row path inside their row, on the full-width path they are exactly the
rows of the window. -/
def Obligations.JobsStayInsideTheBufferAndTheirRow : Prop :=
  ∀ (c : EngineConfig) (x y w h : Nat) (d : Window) (jobs : List Job), legalConfig c = true →
    windowEncode c x y w h = some (d, jobs) → ∀ j ∈ jobs,
    let W := c.width.toNat
    j.off + j.len ≤ W * c.height.toNat / 2 ∧
    (d.w < W → j.row * W / 2 ≤ j.off ∧ j.off + j.len ≤ (j.row + 1) * W / 2) ∧
    (d.w = W → j.off = d.y * W / 2 ∧ j.off + j.len = (d.y + d.h) * W / 2)

/-- R120: the bytes sent cover the requested pixels and at most one pixel on each side of them. -/
def Obligations.WindowAddsAtMostOnePixelOnEachSide : Prop :=
  ∀ (c : EngineConfig) (x y w h : Nat) (d : Window) (jobs : List Job), legalConfig c = true →
    windowEncode c x y w h = some (d, jobs) →
    d.x ≤ x ∧ x ≤ d.x + 1 ∧ min (x + w) c.width.toNat ≤ d.x + d.w ∧ d.x + d.w ≤ x + w ∧
    (d.w < c.width.toNat → ∀ j ∈ jobs, d.w ≤ 2 * j.len ∧ 2 * j.len ≤ d.w + 1 ∧
      (2 * j.len = d.w + 1 → d.x + d.w < c.width.toNat))

/-- R141: the column and row arguments of every job fit a byte, so lowering them drops no bit. -/
def Obligations.ColumnAndRowArgumentsFitAByte : Prop :=
  ∀ (c : EngineConfig) (x y w h : Nat) (d : Window) (jobs : List Job), legalConfig c = true →
    windowEncode c x y w h = some (d, jobs) → ∀ j ∈ jobs, j.col ≤ 255 ∧ j.row ≤ 255

/-- R122: how many CMD and DATA transactions PARTIAL_FLUSH emits when no error occurs, and how many bytes they carry in all.
No window has more than HEIGHT jobs, so 3·HEIGHT answers OK are enough. -/
def Obligations.PartialFlushTransactionCounts : Prop :=
  ∀ (s : State) (x y w h : Nat) (rest : List IfaceInput), legalConfig s.config = true →
    s.iface = okAnswers (3 * s.config.height.toNat) ++ rest →
    ∃ t ts, exec (.partialFlush x y w h) s = .next t ∧ t.op = none ∧ t.downstream = s.downstream ++ exchanges ts ∧
      t.responses = s.responses ++ [0x0000000000000000#64] ∧
      match dirtyWindow s.config x y w h with
      | none => commandCount ts = 0 ∧ dataCount ts = 0 ∧ dataBytes ts = 0
      | some d =>
        if d.w = s.config.width.toNat then
          commandCount ts = 2 ∧ dataCount ts = 1 ∧ dataBytes ts = s.config.width.toNat * d.h / 2
        else commandCount ts = 2 * d.h ∧ dataCount ts = d.h ∧ dataBytes ts = d.h * ((d.w + 1) / 2)

/-! ### Flushes and controller commands -/

/-- R110 (with R123): FLUSH is SetCol(0), SetRow(0) and one DATA of the whole buffer, ascending; it stops at the transaction
answered ERR. -/
def Obligations.FlushSendsTheWholeBuffer : Prop :=
  ∀ s : State, RunsSequence .flush s
    [.cmd s.config.opc.colLow [s.config.opc.colHigh], .cmd s.config.opc.rowAddr [0x00#8],
     .data ((List.range (s.config.width.toNat * s.config.height.toNat / 2)).map (Memory.read s.buf))]

/-- R119, R115, R143 (with R123): PARTIAL_FLUSH runs the jobs of its window in order, each SetCol, SetRow and DATA; it stops at
the transaction answered ERR. -/
def Obligations.PartialFlushRunsTheJobsOfItsWindow : Prop :=
  ∀ (s : State) (x y w h : Nat) (d : Window) (jobs : List Job), legalConfig s.config = true →
    windowEncode s.config x y w h = some (d, jobs) →
    RunsSequence (.partialFlush x y w h) s (jobs.flatMap fun j =>
      [.cmd (s.config.opc.colLow ||| (BitVec.ofNat 8 j.col &&& 0x0F#8)) [s.config.opc.colHigh ||| (BitVec.ofNat 8 j.col >>> 4)],
       .cmd s.config.opc.rowAddr [BitVec.ofNat 8 j.row],
       .data ((List.range j.len).map fun k => Memory.read s.buf (j.off + k))])

/-- R110: FLUSH shows the host and the Interface what PARTIAL_FLUSH of the whole engine shows them, whatever they do. -/
def Obligations.FlushIsThePartialFlushOfEverything : Prop :=
  ∀ s : State, legalConfig s.config = true →
    ∃ t u, exec .flush s = .next t ∧
      exec (.partialFlush 0 0 s.config.width.toNat s.config.height.toNat) s = .next u ∧
      observe t = observe u ∧ t.iface = u.iface ∧ t.busy = u.busy ∧ t.awaiting = u.awaiting

/-- R144 and R145: INIT_DISPLAY emits its 16 transactions in order, and a failing one ends the sequence and the operation. -/
def Obligations.InitDisplayRunsItsSixteenSteps : Prop :=
  ∀ s : State, let o := s.config.opc
    RunsSequence .initDisplay s
      [.cmd o.displayOff [], .cmd o.rowAddr [0x00#8], .cmd o.colLow [o.colHigh], .cmd o.startLine [],
       .cmd o.remapOn [], .cmd o.remapOff [], .cmd o.muxRatio [BitVec.ofNat 8 (s.config.height.toNat - 1)],
       .cmd (if s.config.initScanDir = .scanNormal then o.scanNormal else o.scanRemapped) [],
       .cmd o.displayOffset [0x00#8], .cmd o.contrast [s.config.defaultContrast], .cmd o.entireOn [],
       .cmd o.normal [], .cmd o.displayOn [],
       .cmd o.colLow [o.colHigh], .cmd o.rowAddr [0x00#8],
       .data ((List.range (s.config.width.toNat * s.config.height.toNat / 2)).map (Memory.read s.buf))]

/-- R146 to R149: each single-command operation emits its one transaction, unconditionally, and answers OK or
TRANSPORT_ERROR. -/
def Obligations.SingleCommandsEmitOneTransaction : Prop :=
  ∀ (s : State) (c : Byte),
    RunsSequence .displayOn s [.cmd s.config.opc.displayOn []] ∧
    RunsSequence .displayOff s [.cmd s.config.opc.displayOff []] ∧
    RunsSequence (.setContrast c) s [.cmd s.config.opc.contrast [c]] ∧
    RunsSequence (.setInverted false) s [.cmd s.config.opc.normal []] ∧
    RunsSequence (.setInverted true) s [.cmd s.config.opc.inverted []]

/-- R152: the controller commands and the queries never change `buf`, the configuration or FAULT, whatever the Interface
answers, and all but INIT_DISPLAY do the same whatever `buf` holds. -/
def Obligations.ControllerOperationsAreIndependentOfTheBuffer : Prop :=
  ∀ (s : State) (c : Byte) (b : Bool) (m : Memory),
    (∀ i ∈ [Instr.getWidth, .getHeight, .displayOn, .displayOff, .setContrast c, .setInverted b],
      ∃ t, exec i s = .next t ∧ t.buf = s.buf ∧ t.config = s.config ∧ t.fault = s.fault ∧
        exec i { s with buf := m } = .next { t with buf := m }) ∧
    (∀ t, exec .initDisplay s = .next t → t.buf = s.buf ∧ t.config = s.config ∧ t.fault = s.fault)

/-- R188: PARTIAL_FLUSH never takes OutOfBounds, in either CHECKED setting and whatever its operands; the pixel operations
always do outside the engine. -/
def Obligations.OnlyPixelAccessIsStrictAboutBounds : Prop :=
  ∀ (s : State) (x y w h : Nat) (v : Byte),
    (∀ t, exec (.partialFlush x y w h) s = .next t → t.fault = s.fault) ∧
    (inBounds s.config x y = false → ∀ i ∈ [Instr.getPixel x y, .setPixel x y v, .partialFill x y (w + 1) (h + 1) v],
      ∃ t, exec i s = .next t ∧ t.fault = if s.config.checked then 1#2 else 2#2)

/-! ### The whole machine -/

/-- Every legal reset state meets the invariant, and so does State.reset, whose configuration is the model's choice (log 4, with
opcode bytes of no known value: log 5). -/
def Obligations.ResetMeetsTheInvariant : Prop :=
  (∀ c : EngineConfig, legalConfig c = true → Invariant (State.resetWith c)) ∧ Invariant State.reset

/-- Every step keeps the invariant: the memory's canonical form and bounds (R26, R40), a legal FAULT (R24), FAULTED engines idle
(R175), positions inside their sequence (R29), legal responses (R66, R67), one outstanding transaction at most (R27), and none
left unanswered but by a reset that abandoned its operation (R190). -/
def Obligations.StepKeepsTheInvariant : Prop :=
  ∀ s t : State, Invariant s → step s = .next t → Invariant t

/-- From a state that meets the invariant no step faults, and the only refusal is of an illegal configuration: no access leaves
the buffer (R41, R121, R190). That an access outside would be a fault is log 9, that an illegal configuration is a refusal is
log 8, and that an idle, FAULTED or stalled engine answers its own state is the model's choice (log 7). -/
def Obligations.NoAccessLeavesTheBuffer : Prop :=
  ∀ s : State, Invariant s → (∃ t, step s = .next t) ∨
    (step s = .refused .illegalConfiguration ∧ ∃ c rest, s.host = .reset c :: rest ∧ legalConfig c = false)

/-- R26: only SET_PIXEL, FILL and PARTIAL_FILL write the buffer; a reset zeroes it. -/
def Obligations.OnlyPixelAndFillOperationsWriteTheBuffer : Prop :=
  ∀ s t : State, step s = .next t → t.buf ≠ s.buf →
    (∃ c rest, s.host = .reset c :: rest ∧ t.buf = []) ∨
    (s.busy = false ∧ ∃ word rest i, s.host = .request word :: rest ∧ decode word = .ok i ∧
      ((∃ x y v, i = .setPixel x y v) ∨ (∃ v, i = .fill v) ∨ (∃ x y w h v, i = .partialFill x y w h v)))

/-- R5, R23: the configuration registers change only at a reset. -/
def Obligations.ConfigurationChangesOnlyAtReset : Prop :=
  ∀ s t : State, step s = .next t → t.config = s.config ∨ ∃ c rest, s.host = .reset c :: rest ∧ t.config = c

/-- R24, R170: FAULT changes only when a ready engine accepts a GET_PIXEL or SET_PIXEL of a pixel out of bounds, or a non-empty
PARTIAL_FILL that leaves the engine, from NONE to the value CHECKED selects; or at a reset, to NONE. -/
def Obligations.FaultIsSetOnlyByPixelAccess : Prop :=
  ∀ s t : State, step s = .next t → t.fault ≠ s.fault →
    (t.fault = 0#2 ∧ ∃ c rest, s.host = .reset c :: rest) ∨
    (s.busy = false ∧ s.fault = 0#2 ∧ t.fault = (if s.config.checked then 1#2 else 2#2) ∧
      ∃ word rest i, s.host = .request word :: rest ∧ decode word = .ok i ∧
        ((∃ x y, i = .getPixel x y ∧ inBounds s.config x y = false) ∨
         (∃ x y v, i = .setPixel x y v ∧ inBounds s.config x y = false) ∨
         (∃ x y w h v, i = .partialFill x y w h v ∧ 0 < w ∧ 0 < h ∧
           ¬ (x + w ≤ s.config.width.toNat ∧ y + h ≤ s.config.height.toNat))))

/-- R28: an operation sends exactly one response, at its end, or none when it ends in UNDEFINED_ACCESS (R173). The step that
executes it sends one response and ends it, or sends none and leaves it in progress, or sends none and ends in
UNDEFINED_ACCESS. Every later step but a reset sends one response and ends it, or sends none and leaves it in progress. No
step sends more than one response, and none that sends one leaves an operation in progress. -/
def Obligations.AnOperationSendsOneResponseAtItsEnd : Prop :=
  (∀ (s t : State) (i : Instr), exec i s = .next t →
    ((∃ r, t.responses = s.responses ++ [r]) ∧ t.op = none) ∨
    (t.responses = s.responses ∧ ∃ o, t.op = some o ∧ o.request = i) ∨
    (t.responses = s.responses ∧ t.op = none ∧ t.fault = 2#2 ∧ s.config.checked = false)) ∧
  (∀ (s t : State) (o : Operation), s.op = some o → (∀ c rest, s.host ≠ .reset c :: rest) → step s = .next t →
    ((∃ r, t.responses = s.responses ++ [r]) ∧ t.op = none) ∨
    (t.responses = s.responses ∧ ∃ o', t.op = some o' ∧ o'.request = o.request)) ∧
  (∀ s t : State, step s = .next t →
    t.responses = s.responses ∨ ((∃ r, t.responses = s.responses ++ [r]) ∧ t.op = none))

/-- R26, R49, R53, R170: the frame of every operation. None changes the configuration, the host's script or the marks of an
abandoned operation and of a cleared FAULT. Each flush and controller operation keeps buf and FAULT, only adds to the port's events, only takes
answers from the front of the Interface's script, and adds one response at most. Each other operation keeps the port's events
and the Interface's script. Only SET_PIXEL, FILL and PARTIAL_FILL change a byte of the buffer, and only GET_PIXEL, SET_PIXEL
and PARTIAL_FILL change FAULT. -/
def Obligations.EveryOperationKeepsItsFrame : Prop :=
  ∀ (s t : State) (i : Instr), exec i s = .next t →
    (t.config = s.config ∧ t.host = s.host ∧ t.abandoned = s.abandoned ∧ t.violated = s.violated) ∧
    ((i = .flush ∨ i = .initDisplay ∨ i = .displayOn ∨ i = .displayOff ∨
        (∃ x y w h, i = .partialFlush x y w h) ∨ (∃ c, i = .setContrast c) ∨ (∃ b, i = .setInverted b)) →
      t.buf = s.buf ∧ t.fault = s.fault ∧ (∃ events, t.downstream = s.downstream ++ events) ∧
      (∃ taken, s.iface = taken ++ t.iface) ∧
      (t.responses = s.responses ∨ ∃ r, t.responses = s.responses ++ [r])) ∧
    ((i = .getWidth ∨ i = .getHeight ∨ (∃ x y, i = .getPixel x y) ∨ (∃ x y v, i = .setPixel x y v) ∨ (∃ v, i = .fill v) ∨
        (∃ x y w h v, i = .partialFill x y w h v)) →
      t.downstream = s.downstream ∧ t.iface = s.iface ∧
      (t.responses = s.responses ∨ ∃ r, t.responses = s.responses ++ [r])) ∧
    (writesBuffer i = false → t.buf = s.buf) ∧ (checksBounds i = false → t.fault = s.fault)

/-- R29, R53: an operation that had to wait goes on exactly where it stopped. If the Interface is late with the answer of
transaction `n`, or the engine is late in issuing it, the state reached one step later is the one reached without the wait.
Where a step ends, how a late answer or a late transaction is scripted, and that the sequence is computed again are the
model's choices (log 1, 11, 15). -/
def Obligations.AWaitingOperationResumesWhereItStopped : Prop :=
  ∀ (s : State) (i : Instr) (ts : List Transaction) (n : Nat) (a : Answer) (rest : List IfaceInput),
    s.busy = false → (∀ c more, s.host ≠ .reset c :: more) → sequenceOf i s = some ts → n < ts.length →
    (∃ t, exec i { s with iface := okAnswers n ++ .silent :: .answer a :: rest } = .next t ∧ t.awaiting = true ∧
      transactionsOf t.downstream = transactionsOf s.downstream ++ ts.take (n + 1) ∧
      step t = exec i { s with iface := okAnswers n ++ .answer a :: rest }) ∧
    (∃ t, exec i { s with iface := okAnswers n ++ .hold :: rest } = .next t ∧ t.busy = true ∧ t.awaiting = false ∧
      transactionsOf t.downstream = transactionsOf s.downstream ++ ts.take n ∧
      step t = exec i { s with iface := okAnswers n ++ rest })

/-- R190: the answer to a transaction that a reset abandoned is ignored: it ends no operation and changes nothing the engine
holds. Met by a waiting engine, it is skipped. Met in the step that issues the outstanding transaction, by an operation just
accepted or by one in progress, it counts as no answer. How such an answer is told from the others is the model's choice
(log 10). -/
def Obligations.LateAnswersAreIgnored : Prop :=
  (∀ (s : State) (a : Answer) (rest : List IfaceInput), Invariant s → s.awaiting = true → s.iface = .late a :: rest →
    (∀ c more, s.host ≠ .reset c :: more) → step s = .next { s with iface := rest }) ∧
  (∀ (s : State) (i : Instr) (ts : List Transaction) (n : Nat) (a : Answer) (rest : List IfaceInput),
    sequenceOf i s = some ts → n < ts.length →
    ∃ t, exec i { s with iface := okAnswers n ++ .late a :: rest } = .next t ∧ t.op = some ⟨i, n, true⟩ ∧
      t.iface = rest ∧ t.responses = s.responses ∧
      exec i { s with iface := okAnswers n ++ .silent :: rest } = .next t) ∧
  (∀ (s : State) (o : Operation) (ts : List Transaction) (n : Nat) (a : Answer) (rest : List IfaceInput),
    s.fault = 0#2 → s.op = some o → (∀ c more, s.host ≠ .reset c :: more) → sequenceOf o.request s = some ts →
    o.step + n < ts.length →
    ∃ t, step { s with iface := okAnswers n ++ .late a :: rest } = .next t ∧ t.op = some ⟨o.request, o.step + n, true⟩ ∧
      t.iface = rest ∧ t.responses = s.responses ∧
      step { s with iface := okAnswers n ++ .silent :: rest } = .next t)

/-- R201, R190 and D24: a run in which a reset abandoned an operation has no successful end, ever, and no other step marks it
so. At a successful end every transaction has been answered. That the abandonment is kept as a mark in State is the model's
choice (log 12). -/
def Obligations.AnAbandonedOperationLeavesNoSuccessfulEnd : Prop :=
  (∀ s t : State, step s = .next t → (t.abandoned = true ↔
    s.abandoned = true ∨ (s.op ≠ none ∧ ∃ c rest, s.host = .reset c :: rest))) ∧
  (∀ s : State, s.abandoned = true → ¬ SuccessfulEnd s) ∧
  (∀ s : State, Invariant s → SuccessfulEnd s → ∀ before t after, s.downstream = before ++ .sent t :: after →
    ∃ a later, after = .answered a :: later)

/-- R201, with D17 and the `fault` treatment of I1 and I2: from the step that makes the engine FAULTED on, in either CHECKED
setting, no state of the run is a successful end, whether the engine is reset or not. A step adds the mark of a cleared FAULT
exactly when it is a reset of a FAULTED engine. That it is kept as a mark in State is the model's choice (log 21). -/
def Obligations.AViolationLeavesNoSuccessfulEnd : Prop :=
  (∀ s t : State, step s = .next t → (t.violated = true ↔
    s.violated = true ∨ (s.fault ≠ 0#2 ∧ ∃ c rest, s.host = .reset c :: rest))) ∧
  (∀ s t : State, step s = .next t → s.fault ≠ 0#2 ∨ s.violated = true → t.fault ≠ 0#2 ∨ t.violated = true) ∧
  (∀ s : State, s.fault ≠ 0#2 ∨ s.violated = true → ¬ SuccessfulEnd s) ∧
  (∀ s : State, (outOfBoundsEffect s).fault ≠ 0#2)

/-- R174: a transport error that ends an operation in progress leaves `buf`, FAULT and the configuration, sends
TRANSPORT_ERROR with the code, emits nothing more, and the engine is ready again. -/
def Obligations.TransportErrorEndsTheOperationInProgress : Prop :=
  ∀ (s : State) (e : BitVec 32) (rest : List IfaceInput), Invariant s → s.awaiting = true →
    e.toNat < 2 ^ s.config.teBits.toNat → s.iface = .answer (.err e) :: rest → (∀ c more, s.host ≠ .reset c :: more) →
    ∃ t, step s = .next t ∧
      t = { s with
        iface := rest
        op := none
        downstream := s.downstream ++ [.answered (.err e)]
        responses := s.responses ++ [e ++ 0x00000001#32] } ∧
      t.busy = false

/-- R177, R202: an idle engine to which the host presents nothing does nothing of its own. That the step then answers the same
state is the model's choice (log 7). -/
def Obligations.IdleEngineDoesNothingOfItsOwn : Prop :=
  ∀ s : State, s.busy = false → s.host = [] → step s = .next s
end

