-- ==== Sys2Proof/Laws/Encoding.lean ====
section
/-! SUPPORT. The layout of the request word (R61): splitting and joining are inverse, and masking goes field by field. -/

namespace Sys2Proof

/-- Bits of a concatenation below its low part are the low part's. -/
theorem extract_append_low {m n k l : Nat} (a : BitVec m) (b : BitVec n) (h : k + l ≤ n) :
    (a ++ b).extractLsb' k l = b.extractLsb' k l := by
  apply BitVec.eq_of_getLsbD_eq
  intro i hi
  simp only [BitVec.getLsbD_extractLsb', BitVec.getLsbD_append, hi, decide_true, Bool.true_and]
  rw [if_pos (by omega)]

/-- Bits of a concatenation above its low part are the high part's. -/
theorem extract_append_high {m n k l : Nat} (a : BitVec m) (b : BitVec n) (h : n ≤ k) :
    (a ++ b).extractLsb' k l = a.extractLsb' (k - n) l := by
  apply BitVec.eq_of_getLsbD_eq
  intro i hi
  simp only [BitVec.getLsbD_extractLsb', BitVec.getLsbD_append, hi, decide_true, Bool.true_and]
  rw [if_neg (by omega), Nat.sub_add_comm h]

/-- Reading the fields of a joined word gives them back (R61). -/
@[simp] theorem splitWord_joinWord (f : RequestFields) : splitWord (joinWord f) = f := by
  cases f
  simp only [splitWord, joinWord, RequestFields.mk.injEq]
  refine ⟨?_, ?_, ?_, ?_, ?_, ?_, ?_⟩ <;>
  · repeat first | rw [extract_append_low _ _ (by decide)] | rw [extract_append_high _ _ (by decide)]
    simp

/-- Joining the fields of a word gives the word back (R61). -/
@[simp] theorem joinWord_splitWord (word : RequestWord) : joinWord (splitWord word) = word := by
  apply BitVec.eq_of_getLsbD_eq
  intro i hi
  simp only [splitWord, joinWord, BitVec.getLsbD_append, BitVec.getLsbD_extractLsb']
  repeat' split
  all_goals
    rw [decide_eq_true (by omega), Bool.true_and]
    congr 1
    omega

/-- A word is its fields. -/
theorem joinWord_injective {f g : RequestFields} (h : joinWord f = joinWord g) : f = g := by
  rw [← splitWord_joinWord f, h, splitWord_joinWord]

/-- Masking a word masks each field. -/
theorem joinWord_and (f g : RequestFields) : joinWord f &&& joinWord g =
    joinWord ⟨f.op &&& g.op, f.v &&& g.v, f.x &&& g.x, f.y &&& g.y, f.w &&& g.w, f.h &&& g.h, f.rsv &&& g.rsv⟩ := by
  apply BitVec.eq_of_getLsbD_eq
  intro i hi
  simp only [joinWord, BitVec.getLsbD_append, BitVec.getLsbD_and]
  repeat' split
  all_goals rfl

/-- A masked word matches exactly when each masked field does. -/
theorem masked_eq_iff (word mask : RequestWord) (g : RequestFields) :
    word &&& mask = joinWord g ↔
      (splitWord word).op &&& (splitWord mask).op = g.op ∧ (splitWord word).v &&& (splitWord mask).v = g.v ∧
      (splitWord word).x &&& (splitWord mask).x = g.x ∧ (splitWord word).y &&& (splitWord mask).y = g.y ∧
      (splitWord word).w &&& (splitWord mask).w = g.w ∧ (splitWord word).h &&& (splitWord mask).h = g.h ∧
      (splitWord word).rsv &&& (splitWord mask).rsv = g.rsv := by
  conv_lhs => rw [← joinWord_splitWord word, ← joinWord_splitWord mask, joinWord_and]
  constructor
  · intro h
    have := joinWord_injective h
    subst this
    simp
  · intro h
    congr 1
    cases g
    simp_all

/-- The match word of a row: its opcode, all other fields zero (R64). -/
theorem matchWord_eq (r : OpRow) : r.matchWord = joinWord ⟨r.opcode, 0, 0, 0, 0, 0, 0⟩ := by
  rw [← joinWord_splitWord r.matchWord]
  congr 1
  simp only [splitWord, OpRow.matchWord, RequestFields.mk.injEq]
  have high : ∀ k l, 8 ≤ k → (BitVec.setWidth 96 r.opcode).extractLsb' k l = 0#l := by
    intro k l hk
    apply BitVec.eq_of_getLsbD_eq
    intro i hi
    rw [BitVec.getLsbD_extractLsb', BitVec.getLsbD_setWidth, BitVec.getLsbD_of_ge r.opcode (k + i) (by omega)]
    simp
  refine ⟨?_, high _ _ (by decide), high _ _ (by decide), high _ _ (by decide), high _ _ (by decide),
    high _ _ (by decide), high _ _ (by decide)⟩
  apply BitVec.eq_of_getLsbD_eq
  intro i hi
  simp [hi, show i < 96 by omega]

@[simp] theorem and_allOnes_byte (b : Byte) : b &&& 0xFF#8 = b := BitVec.and_allOnes

@[simp] theorem and_allOnes_half (b : BitVec 16) : b &&& 0xFFFF#16 = b := BitVec.and_allOnes

/-- The masks of R64, field by field. -/
theorem splitWord_mask (f : Format) : splitWord f.mask =
    match f with
    | .f0 => ⟨0xFF#8, 0xFF#8, 0xFFFF#16, 0xFFFF#16, 0xFFFF#16, 0xFFFF#16, 0xFFFF#16⟩
    | .fv => ⟨0xFF#8, 0#8, 0xFFFF#16, 0xFFFF#16, 0xFFFF#16, 0xFFFF#16, 0xFFFF#16⟩
    | .fb => ⟨0xFF#8, 0xFE#8, 0xFFFF#16, 0xFFFF#16, 0xFFFF#16, 0xFFFF#16, 0xFFFF#16⟩
    | .fxy => ⟨0xFF#8, 0xFF#8, 0#16, 0#16, 0xFFFF#16, 0xFFFF#16, 0xFFFF#16⟩
    | .fvxy => ⟨0xFF#8, 0#8, 0#16, 0#16, 0xFFFF#16, 0xFFFF#16, 0xFFFF#16⟩
    | .fr => ⟨0xFF#8, 0xFF#8, 0#16, 0#16, 0#16, 0#16, 0xFFFF#16⟩
    | .fvr => ⟨0xFF#8, 0#8, 0#16, 0#16, 0#16, 0#16, 0xFFFF#16⟩ := by
  cases f <;> decide

/-- Every opcode is a row's, or none of R63's. -/
theorem findRow_cases (opcode : Byte) :
    (findRow opcode = none ∧ ∀ r ∈ opcodeMap, r.opcode ≠ opcode) ∨
    ∃ r ∈ opcodeMap, r.opcode = opcode ∧ findRow opcode = some r := by
  revert opcode
  decide

/-- No two rows share an opcode (R63). -/
theorem opcodeMap_unique : ∀ r ∈ opcodeMap, ∀ r' ∈ opcodeMap, r.opcode = r'.opcode → r = r' := by decide

/-- Decoding a word whose opcode has a row, field by field (R69). -/
theorem decode_of_row {word : RequestWord} {r : OpRow} (h : findRow (splitWord word).op = some r) :
    decode word =
      let f := splitWord word
      let m := splitWord r.format.mask
      if f.op &&& m.op = r.opcode ∧ f.v &&& m.v = 0 ∧ f.x &&& m.x = 0 ∧ f.y &&& m.y = 0 ∧ f.w &&& m.w = 0 ∧
          f.h &&& m.h = 0 ∧ f.rsv &&& m.rsv = 0 then
        .ok (assembleOperands r.name f)
      else .error (.unusedBitSet r.name) := by
  unfold decode
  rw [h]
  simp only [matchWord_eq, masked_eq_iff]

/-- Decoding a word whose opcode has no row (R65). -/
theorem decode_of_no_row {word : RequestWord} (h : findRow (splitWord word).op = none) :
    decode word = .error (.undefinedOp (splitWord word).op) := by
  unfold decode
  rw [h]

end Sys2Proof
end

