-- ==== Sys2Proof/Laws/Geometry.lean ====
section
/-! SUPPORT. The arithmetic of the addressing function and of the window encoder in a legal configuration (R5, R80 to R83,
R113, R114, R116 to R118). -/

namespace Sys2Proof.Machine

/-- The conditions of R190, one by one. -/
theorem legalConfig_iff (c : EngineConfig) : legalConfig c = true ↔
    widthOf c % 2 = 0 ∧ 2 ≤ widthOf c ∧ widthOf c ≤ wMax c ∧ 1 ≤ heightOf c ∧ heightOf c ≤ 256 ∧
    c.opc.colLow.extractLsb' 0 4 = 0#4 ∧ c.opc.colHigh.extractLsb' 0 4 = 0#4 ∧
    1 ≤ c.teBits.toNat ∧ c.teBits.toNat ≤ 32 := by
  simp [legalConfig, and_assoc]

theorem inBounds_iff (c : EngineConfig) (x y : Nat) : inBounds c x y = true ↔ x < widthOf c ∧ y < heightOf c := by
  simp [inBounds]

/-- byte_idx is half the pixel index (R81). -/
@[simp] theorem byteIndex_eq (i : Nat) : byteIndex i = i / 2 := by
  unfold byteIndex
  omega

/-- WIDTH is twice a half-width. -/
theorem widthOf_even {c : EngineConfig} (h : legalConfig c = true) : ∃ k, widthOf c = 2 * k ∧ 1 ≤ k := by
  have h := (legalConfig_iff c).1 h
  exact ⟨widthOf c / 2, by omega, by omega⟩

theorem pixelIndex_even {c : EngineConfig} {k : Nat} (h : widthOf c = 2 * k) (x y : Nat) :
    pixelIndex c x y = x + 2 * (y * k) := by
  unfold pixelIndex
  rw [h]
  ring

theorem nBytes_even {c : EngineConfig} {k : Nat} (h : widthOf c = 2 * k) : nBytes c = heightOf c * k := by
  unfold nBytes
  rw [h, show 2 * k * heightOf c = 2 * (heightOf c * k) by ring]
  omega

/-- The byte of a pixel: its row's first byte and half its column (R50). -/
theorem byteIndex_pixel {c : EngineConfig} {k : Nat} (h : widthOf c = 2 * k) (x y : Nat) :
    byteIndex (pixelIndex c x y) = x / 2 + y * k := by
  rw [byteIndex_eq, pixelIndex_even h]
  omega

/-- The nibble of a pixel is decided by its column (R113). -/
theorem nibbleShift_pixel {c : EngineConfig} {k : Nat} (h : widthOf c = 2 * k) (x y : Nat) :
    nibbleShift (pixelIndex c x y) = if x % 2 = 0 then 4 else 0 := by
  unfold nibbleShift
  rw [pixelIndex_even h]
  congr 1
  simp only [eq_iff_iff]
  omega

/-- An in-bounds pixel lies in the buffer (R41, R81). -/
theorem byteIndex_lt {c : EngineConfig} (hc : legalConfig c = true) {x y : Nat} (h : inBounds c x y = true) :
    byteIndex (pixelIndex c x y) < nBytes c := by
  obtain ⟨k, hk, hk1⟩ := widthOf_even hc
  rw [byteIndex_pixel hk, nBytes_even hk]
  obtain ⟨hx, hy⟩ := (inBounds_iff c x y).1 h
  calc x / 2 + y * k < k + y * k := by omega
    _ = (y + 1) * k := by ring
    _ ≤ heightOf c * k := Nat.mul_le_mul_right k hy

/-- Two in-bounds pixels in one byte and one nibble are one pixel. -/
theorem pixel_injective {c : EngineConfig} (hc : legalConfig c = true) {x y x' y' : Nat} (hx : x < widthOf c)
    (hx' : x' < widthOf c) (hb : byteIndex (pixelIndex c x y) = byteIndex (pixelIndex c x' y'))
    (hs : nibbleShift (pixelIndex c x y) = nibbleShift (pixelIndex c x' y')) : x = x' ∧ y = y' := by
  obtain ⟨k, hk, hk1⟩ := widthOf_even hc
  rw [byteIndex_pixel hk, byteIndex_pixel hk] at hb
  rw [nibbleShift_pixel hk, nibbleShift_pixel hk] at hs
  have hy : y = y' := by
    have h1 : (x / 2 + y * k) / k = y := by
      rw [Nat.add_mul_div_right _ _ (by omega), Nat.div_eq_of_lt (by omega), Nat.zero_add]
    have h2 : (x' / 2 + y' * k) / k = y' := by
      rw [Nat.add_mul_div_right _ _ (by omega), Nat.div_eq_of_lt (by omega), Nat.zero_add]
    rw [← h1, hb, h2]
  subst hy
  refine ⟨?_, rfl⟩
  have : x / 2 = x' / 2 := by omega
  split at hs <;> split at hs <;> omega

/-- A window exists exactly for a rectangle that starts inside (R112). -/
theorem dirtyWindow_eq_none_iff (c : EngineConfig) (x y w h : Nat) :
    dirtyWindow c x y w h = none ↔ widthOf c ≤ x ∨ heightOf c ≤ y := by
  unfold dirtyWindow
  split <;> simp_all

/-- Everything the window of a rectangle is (R113, R114). -/
theorem dirtyWindow_spec {c : EngineConfig} (hc : legalConfig c = true) {x y w h : Nat} {d : Window}
    (hd : dirtyWindow c x y w h = some d) :
    x < widthOf c ∧ y < heightOf c ∧ d.y = y ∧ d.h = min h (heightOf c - y) ∧ d.x = x - x % 2 ∧
    d.w = min (w + x % 2) (widthOf c - d.x) := by
  obtain ⟨k, hk, -⟩ := widthOf_even hc
  unfold dirtyWindow at hd
  split at hd
  · simp at hd
  · next hin =>
    simp only [alignLeft, nibbleShift_pixel hk] at hd
    have hx : x % 2 = 0 ∨ x % 2 = 1 := by omega
    rcases hx with hx | hx <;>
    · simp only [hx, Option.some.injEq, reduceIte, one_ne_zero, OfNat.ofNat_ne_zero] at hd
      subst hd
      refine ⟨by omega, by omega, rfl, rfl, ?_, ?_⟩ <;> simp <;> omega

/-- WINDOW is the dirty window and its jobs (R111). -/
theorem windowEncode_eq_some {c : EngineConfig} {x y w h : Nat} {d : Window} {jobs : List Job} :
    windowEncode c x y w h = some (d, jobs) ↔ dirtyWindow c x y w h = some d ∧ jobs = windowJobs c d := by
  unfold windowEncode
  split
  · next hn => simp [hn]
  · next d' hs =>
    simp only [hs, Option.some.injEq, Prod.mk.injEq]
    constructor
    · rintro ⟨rfl, h⟩
      exact ⟨rfl, h.symm⟩
    · rintro ⟨rfl, h⟩
      exact ⟨rfl, h.symm⟩

/-- COL(0) = 0 in both modes (R110). -/
@[simp] theorem columnValue_zero (c : EngineConfig) : columnValue c 0 = 0 := by
  unfold columnValue
  split <;> rfl

end Sys2Proof.Machine
end

