-- ==== Sys2Proof/Laws/Memory.lean ====
section
/-! SUPPORT. The laws of the buffer memory: read after write, frames, and that every operation keeps the canonical form. -/

namespace Sys2Proof.Machine

@[simp] theorem wf_nil : Memory.wf [] = true := rfl

theorem wf_cons (c : Host.Cell) (m : Memory) :
    Memory.wf (c :: m) = true ↔ c.2 ≠ 0#8 ∧ (∀ d ∈ m, c.1 < d.1) ∧ Memory.wf m = true := by
  simp [Memory.wf, and_assoc]

@[simp] theorem read_nil (a : Nat) : Memory.read [] a = 0#8 := rfl

@[simp] theorem read_cons (c : Host.Cell) (m : Memory) (a : Nat) :
    Memory.read (c :: m) a = if c.1 = a then c.2 else Memory.read m a := rfl

theorem write_nil (a : Nat) (b : Byte) : Memory.write [] a b = if b = 0#8 then [] else [(a, b)] := rfl

theorem write_cons (c : Host.Cell) (m : Memory) (a : Nat) (b : Byte) : Memory.write (c :: m) a b =
    if a < c.1 then (if b = 0#8 then c :: m else (a, b) :: c :: m)
    else if a = c.1 then (if b = 0#8 then m else (a, b) :: m)
    else c :: Memory.write m a b := rfl

/-- An address no entry has reads as 0x00. -/
theorem read_of_not_listed {m : Memory} {a : Nat} (h : ∀ d ∈ m, d.1 ≠ a) : Memory.read m a = 0#8 := by
  induction m with
  | nil => rfl
  | cons c m ih => simp_all

/-- An address below every entry reads as 0x00. -/
theorem read_of_below {m : Memory} {a : Nat} (h : ∀ d ∈ m, a < d.1) : Memory.read m a = 0#8 :=
  read_of_not_listed fun d hd => by have := h d hd; omega

/-- A write leaves every other byte alone. -/
theorem read_write_other (m : Memory) {a a' : Nat} (b : Byte) (h : a' ≠ a) :
    Memory.read (Memory.write m a b) a' = Memory.read m a' := by
  induction m with
  | nil => unfold Memory.write; split <;> simp [Ne.symm h]
  | cons c m ih =>
    unfold Memory.write
    split
    · split <;> simp [Ne.symm h]
    · split
      · next hc => subst hc; split <;> simp [Ne.symm h]
      · simp [ih]

/-- A byte reads as what was last written to it. -/
theorem read_write_same {m : Memory} (hm : Memory.wf m = true) (a : Nat) (b : Byte) :
    Memory.read (Memory.write m a b) a = b := by
  induction m with
  | nil => unfold Memory.write; split <;> simp_all
  | cons c m ih =>
    obtain ⟨-, hlt, hwf⟩ := (wf_cons c m).1 hm
    unfold Memory.write
    split
    · next hac =>
      split
      · next hb =>
        subst hb
        exact read_of_below fun d hd => by
          rcases List.mem_cons.1 hd with rfl | hd
          · exact hac
          · have := hlt d hd; omega
      · simp
    · split
      · next hac =>
        split
        · next hb => subst hb hac; exact read_of_below hlt
        · simp
      · next hne => rw [read_cons, if_neg (Ne.symm hne), ih hwf]

/-- Reading after a write. -/
theorem read_write {m : Memory} (hm : Memory.wf m = true) (a a' : Nat) (b : Byte) :
    Memory.read (Memory.write m a b) a' = if a' = a then b else Memory.read m a' := by
  split
  · next h => subst h; exact read_write_same hm _ _
  · next h => exact read_write_other m b h

/-- The entries of a memory after a write are the old ones and the one written. -/
theorem mem_write {m : Memory} {a : Nat} {b : Byte} {d : Host.Cell} (h : d ∈ Memory.write m a b) : d ∈ m ∨ d = (a, b) := by
  induction m with
  | nil =>
    unfold Memory.write at h
    split at h <;> simp_all
  | cons c m ih =>
    unfold Memory.write at h
    split at h
    · split at h
      · exact .inl h
      · rcases List.mem_cons.1 h with h | h
        · exact .inr h
        · exact .inl h
    · split at h
      · split at h
        · exact .inl (List.mem_cons_of_mem _ h)
        · rcases List.mem_cons.1 h with h | h
          · exact .inr h
          · exact .inl (List.mem_cons_of_mem _ h)
      · rcases List.mem_cons.1 h with h | h
        · exact .inl (by simp [h])
        · rcases ih h with h | h
          · exact .inl (List.mem_cons_of_mem _ h)
          · exact .inr h

/-- A write keeps the canonical form. -/
theorem wf_write {m : Memory} (hm : Memory.wf m = true) (a : Nat) (b : Byte) : Memory.wf (Memory.write m a b) = true := by
  induction m with
  | nil => unfold Memory.write; split <;> simp_all [Memory.wf]
  | cons c m ih =>
    obtain ⟨hc, hlt, hwf⟩ := (wf_cons c m).1 hm
    unfold Memory.write
    split
    · next hac =>
      split
      · exact hm
      · next hb =>
        refine (wf_cons _ _).2 ⟨hb, fun d hd => ?_, hm⟩
        rcases List.mem_cons.1 hd with rfl | hd
        · exact hac
        · exact Nat.lt_trans hac (hlt d hd)
    · split
      · next hac =>
        split
        · exact hwf
        · next hb => exact (wf_cons _ _).2 ⟨hb, fun d hd => hac ▸ hlt d hd, hwf⟩
      · next h1 h2 =>
        refine (wf_cons _ _).2 ⟨hc, fun d hd => ?_, ih hwf⟩
        rcases mem_write hd with hd | rfl
        · exact hlt d hd
        · show c.1 < a; omega

/-- A write below a bound keeps every entry below it. -/
theorem bound_write {m : Memory} {n a : Nat} (hm : ∀ c ∈ m, c.1 < n) (ha : a < n) (b : Byte) :
    ∀ c ∈ Memory.write m a b, c.1 < n := fun c hc => by
  rcases mem_write hc with h | rfl
  · exact hm c h
  · exact ha

/-! ### FILL -/

theorem read_append_of_not_listed {l m : Memory} {a : Nat} (h : ∀ d ∈ l, d.1 ≠ a) :
    Memory.read (l ++ m) a = Memory.read m a := by
  induction l with
  | nil => rfl
  | cons c l ih => simp_all

theorem read_append_of_listed {l m : Memory} {a : Nat} {b : Byte} (h : ∀ d ∈ l, d.2 = b) (ha : ∃ d ∈ l, d.1 = a) :
    Memory.read (l ++ m) a = b := by
  induction l with
  | nil => simp at ha
  | cons c l ih =>
    by_cases hc : c.1 = a
    · simp [hc, h c (by simp)]
    · rw [List.cons_append, read_cons, if_neg hc]
      refine ih (fun d hd => h d (by simp [hd])) ?_
      obtain ⟨d, hd, hda⟩ := ha
      rcases List.mem_cons.1 hd with rfl | hd
      · exact absurd hda hc
      · exact ⟨d, hd, hda⟩

theorem read_filter_ge (m : Memory) {n a : Nat} (h : n ≤ a) :
    Memory.read (m.filter (fun c => decide (n ≤ c.1))) a = Memory.read m a := by
  induction m with
  | nil => rfl
  | cons c m ih =>
    by_cases hc : n ≤ c.1
    · simp [hc, ih]
    · have : c.1 ≠ a := by omega
      simp [hc, ih, this]

/-- Reading after a fill. -/
theorem read_fill (m : Memory) (n : Nat) (p : Byte) (a : Nat) :
    Memory.read (Memory.fill m n p) a = if a < n then p else Memory.read m a := by
  unfold Memory.fill
  by_cases ha : a < n
  · rw [if_pos ha]
    by_cases hp : p = 0#8
    · rw [if_pos hp, List.nil_append, hp]
      exact read_of_not_listed fun d hd => by have := (List.mem_filter.1 hd).2; simp at this; omega
    · rw [if_neg hp]
      exact read_append_of_listed (fun d hd => by obtain ⟨k, -, rfl⟩ := List.mem_map.1 hd; rfl)
        ⟨(a, p), List.mem_map.2 ⟨a, List.mem_range.2 ha, rfl⟩, rfl⟩
  · rw [if_neg ha, read_append_of_not_listed, read_filter_ge m (by omega)]
    intro d hd
    split at hd
    · simp at hd
    · obtain ⟨k, hk, rfl⟩ := List.mem_map.1 hd
      have := List.mem_range.1 hk
      show k ≠ a
      omega

theorem wf_filter {m : Memory} (hm : Memory.wf m = true) (f : Host.Cell → Bool) : Memory.wf (m.filter f) = true := by
  induction m with
  | nil => rfl
  | cons c m ih =>
    obtain ⟨hc, hlt, hwf⟩ := (wf_cons c m).1 hm
    rw [List.filter_cons]
    split
    · exact (wf_cons _ _).2 ⟨hc, fun d hd => hlt d (List.mem_filter.1 hd).1, ih hwf⟩
    · exact ih hwf

theorem wf_append {l m : Memory} (hl : Memory.wf l = true) (hm : Memory.wf m = true)
    (h : ∀ c ∈ l, ∀ d ∈ m, c.1 < d.1) : Memory.wf (l ++ m) = true := by
  induction l with
  | nil => exact hm
  | cons c l ih =>
    obtain ⟨hc, hlt, hwf⟩ := (wf_cons c l).1 hl
    refine (wf_cons _ _).2 ⟨hc, fun d hd => ?_, ih hwf fun c' hc' => h c' (by simp [hc'])⟩
    rcases List.mem_append.1 hd with hd | hd
    · exact hlt d hd
    · exact h c (by simp) d hd

theorem wf_run {l : List Nat} (hl : l.Pairwise (· < ·)) {p : Byte} (hp : p ≠ 0#8) :
    Memory.wf (l.map (fun a => ((a, p) : Host.Cell))) = true := by
  induction hl with
  | nil => rfl
  | cons h _ ih =>
    refine (wf_cons _ _).2 ⟨hp, fun d hd => ?_, ih⟩
    obtain ⟨k, hk, rfl⟩ := List.mem_map.1 hd
    exact h k hk

/-- A fill keeps the canonical form. -/
theorem wf_fill {m : Memory} (hm : Memory.wf m = true) (n : Nat) (p : Byte) : Memory.wf (Memory.fill m n p) = true := by
  unfold Memory.fill
  split
  · exact wf_filter hm _
  · next hp =>
    refine wf_append (wf_run List.pairwise_lt_range hp) (wf_filter hm _) fun c hc d hd => ?_
    obtain ⟨k, hk, rfl⟩ := List.mem_map.1 hc
    have h1 := List.mem_range.1 hk
    have h2 := (List.mem_filter.1 hd).2
    simp only [decide_eq_true_eq] at h2
    show k < d.1
    omega

/-- A fill of the bytes below a bound keeps every entry below it. -/
theorem bound_fill {m : Memory} {n : Nat} (hm : ∀ c ∈ m, c.1 < n) (p : Byte) : ∀ c ∈ Memory.fill m n p, c.1 < n := by
  intro c hc
  unfold Memory.fill at hc
  rcases List.mem_append.1 hc with h | h
  · split at h
    · simp at h
    · obtain ⟨k, hk, rfl⟩ := List.mem_map.1 h
      exact List.mem_range.1 hk
  · exact hm c (List.mem_filter.1 h).1

end Sys2Proof.Machine
end

