-- ==== Sys2Proof/Laws/State.lean ====
section
/-! SUPPORT. What each update of the state leaves in each field: one lemma per field per update. -/

namespace Sys2Proof.Machine

variable (s : State)

@[simp] theorem resetWith_config (c : EngineConfig) : (State.resetWith c).config = c := rfl
@[simp] theorem resetWith_buf (c : EngineConfig) : (State.resetWith c).buf = [] := rfl
@[simp] theorem resetWith_fault (c : EngineConfig) : (State.resetWith c).fault = 0#2 := rfl
@[simp] theorem resetWith_op (c : EngineConfig) : (State.resetWith c).op = none := rfl
@[simp] theorem resetWith_responses (c : EngineConfig) : (State.resetWith c).responses = [] := rfl
@[simp] theorem resetWith_downstream (c : EngineConfig) : (State.resetWith c).downstream = [] := rfl
@[simp] theorem resetWith_abandoned (c : EngineConfig) : (State.resetWith c).abandoned = false := rfl
@[simp] theorem resetWith_violated (c : EngineConfig) : (State.resetWith c).violated = false := rfl
@[simp] theorem resetWith_host (c : EngineConfig) : (State.resetWith c).host = [] := rfl
@[simp] theorem resetWith_iface (c : EngineConfig) : (State.resetWith c).iface = [] := rfl

section Respond
variable (st : Status) (v : BitVec 16) (e : BitVec 32)
@[simp] theorem respond_config : (s.respond st v e).config = s.config := rfl
@[simp] theorem respond_buf : (s.respond st v e).buf = s.buf := rfl
@[simp] theorem respond_fault : (s.respond st v e).fault = s.fault := rfl
@[simp] theorem respond_op : (s.respond st v e).op = none := rfl
@[simp] theorem respond_responses : (s.respond st v e).responses = s.responses ++ [responseWord st v e] := rfl
@[simp] theorem respond_downstream : (s.respond st v e).downstream = s.downstream := rfl
@[simp] theorem respond_abandoned : (s.respond st v e).abandoned = s.abandoned := rfl
@[simp] theorem respond_violated : (s.respond st v e).violated = s.violated := rfl
@[simp] theorem respond_host : (s.respond st v e).host = s.host := rfl
@[simp] theorem respond_iface : (s.respond st v e).iface = s.iface := rfl
end Respond

section Send
variable (i : Instr) (k : Nat) (t : Transaction)
@[simp] theorem send_config : (s.send i k t).config = s.config := rfl
@[simp] theorem send_buf : (s.send i k t).buf = s.buf := rfl
@[simp] theorem send_fault : (s.send i k t).fault = s.fault := rfl
@[simp] theorem send_op : (s.send i k t).op = some ⟨i, k, true⟩ := rfl
@[simp] theorem send_responses : (s.send i k t).responses = s.responses := rfl
@[simp] theorem send_downstream : (s.send i k t).downstream = s.downstream ++ [.sent t] := rfl
@[simp] theorem send_abandoned : (s.send i k t).abandoned = s.abandoned := rfl
@[simp] theorem send_violated : (s.send i k t).violated = s.violated := rfl
@[simp] theorem send_host : (s.send i k t).host = s.host := rfl
@[simp] theorem send_iface : (s.send i k t).iface = s.iface := rfl
end Send

@[simp] theorem dropHost_config : s.dropHost.config = s.config := rfl
@[simp] theorem dropHost_buf : s.dropHost.buf = s.buf := rfl
@[simp] theorem dropHost_fault : s.dropHost.fault = s.fault := rfl
@[simp] theorem dropHost_op : s.dropHost.op = s.op := rfl
@[simp] theorem dropHost_responses : s.dropHost.responses = s.responses := rfl
@[simp] theorem dropHost_downstream : s.dropHost.downstream = s.downstream := rfl
@[simp] theorem dropHost_abandoned : s.dropHost.abandoned = s.abandoned := rfl
@[simp] theorem dropHost_violated : s.dropHost.violated = s.violated := rfl
@[simp] theorem dropHost_host : s.dropHost.host = s.host.tail := rfl
@[simp] theorem dropHost_iface : s.dropHost.iface = s.iface := rfl
@[simp] theorem dropHost_awaiting : s.dropHost.awaiting = s.awaiting := rfl

section OutOfBounds
@[simp] theorem raiseOutOfBounds_config : (raiseOutOfBounds s).config = s.config := by unfold raiseOutOfBounds; split <;> rfl
@[simp] theorem raiseOutOfBounds_buf : (raiseOutOfBounds s).buf = s.buf := by unfold raiseOutOfBounds; split <;> rfl
@[simp] theorem raiseOutOfBounds_op : (raiseOutOfBounds s).op = none := by unfold raiseOutOfBounds; split <;> rfl
@[simp] theorem raiseOutOfBounds_downstream : (raiseOutOfBounds s).downstream = s.downstream := by
  unfold raiseOutOfBounds; split <;> rfl
@[simp] theorem raiseOutOfBounds_host : (raiseOutOfBounds s).host = s.host := by unfold raiseOutOfBounds; split <;> rfl
@[simp] theorem raiseOutOfBounds_abandoned : (raiseOutOfBounds s).abandoned = s.abandoned := by
  unfold raiseOutOfBounds; split <;> rfl
@[simp] theorem raiseOutOfBounds_violated : (raiseOutOfBounds s).violated = s.violated := by
  unfold raiseOutOfBounds; split <;> rfl
@[simp] theorem raiseOutOfBounds_iface : (raiseOutOfBounds s).iface = s.iface := by unfold raiseOutOfBounds; split <;> rfl
theorem raiseOutOfBounds_fault :
    (raiseOutOfBounds s).fault = if s.config.checked then faultContractViolation else faultUndefinedAccess := by
  unfold raiseOutOfBounds; split <;> rfl
theorem raiseOutOfBounds_responses :
    (raiseOutOfBounds s).responses =
      if s.config.checked then s.responses ++ [responseWord .contractViolation 0#16 0#32] else s.responses := by
  unfold raiseOutOfBounds; split <;> rfl
end OutOfBounds

section ApplyReset
variable (c : EngineConfig)
@[simp] theorem applyReset_config : (applyReset c s).config = c := rfl
@[simp] theorem applyReset_buf : (applyReset c s).buf = [] := rfl
@[simp] theorem applyReset_fault : (applyReset c s).fault = 0#2 := rfl
@[simp] theorem applyReset_op : (applyReset c s).op = none := rfl
@[simp] theorem applyReset_responses : (applyReset c s).responses = s.responses := rfl
theorem applyReset_downstream :
    (applyReset c s).downstream = if s.awaiting then s.downstream ++ [.abandoned] else s.downstream := rfl
@[simp] theorem applyReset_host : (applyReset c s).host = s.host := rfl
@[simp] theorem applyReset_abandoned : (applyReset c s).abandoned = (s.abandoned || s.op.isSome) := rfl
@[simp] theorem applyReset_violated : (applyReset c s).violated = (s.violated || s.fault != faultNone) := rfl
@[simp] theorem applyReset_iface : (applyReset c s).iface = s.iface := rfl
end ApplyReset

section WithFetchWord
variable (n w : Nat)
@[simp] theorem withFetchWord_config : (s.withFetchWord n w).config = s.config := rfl
@[simp] theorem withFetchWord_buf : (s.withFetchWord n w).buf = s.buf := rfl
@[simp] theorem withFetchWord_fault : (s.withFetchWord n w).fault = faultNone := rfl
@[simp] theorem withFetchWord_op : (s.withFetchWord n w).op = none := rfl
@[simp] theorem withFetchWord_responses : (s.withFetchWord n w).responses = s.responses := rfl
@[simp] theorem withFetchWord_downstream : (s.withFetchWord n w).downstream = s.downstream := rfl
@[simp] theorem withFetchWord_abandoned : (s.withFetchWord n w).abandoned = s.abandoned := rfl
@[simp] theorem withFetchWord_violated : (s.withFetchWord n w).violated = s.violated := rfl
@[simp] theorem withFetchWord_iface : (s.withFetchWord n w).iface = s.iface := rfl
@[simp] theorem withFetchWord_host :
    (s.withFetchWord n w).host = .request (BitVec.ofNat 96 (w % 2 ^ n)) :: s.host := rfl
end WithFetchWord

/-- BUSY is 0 exactly when no operation is in progress and FAULT is NONE (R25). -/
theorem busy_eq_false_iff : s.busy = false ↔ s.op = none ∧ s.fault = faultNone := by
  simp [State.busy]

end Sys2Proof.Machine
end

