-- ==== Sys2Proof/Laws/Pixels.lean ====
section
/-! SUPPORT. What writing pixels does: the nibble laws (R82, R84, R85), one spec lemma for `visitPixel`, one for `visitRow` and
one for `visitRows`. -/

namespace Sys2Proof.Machine

/-- The nibble written is the nibble read, with the low bits lost (R6, R87). -/
theorem nibbleOut_nibbleIn_same (b v : Byte) (i : Nat) :
    nibbleOut (nibbleIn b (nibbleShift i) v) (nibbleShift i) = v &&& 0xF0#8 := by
  unfold nibbleOut nibbleIn nibbleShift
  split <;>
  · apply BitVec.eq_of_getLsbD_eq
    intro j hj
    interval_cases j <;> simp

/-- The other nibble is kept (R86). -/
theorem nibbleOut_nibbleIn_other (b v : Byte) {i j : Nat} (h : nibbleShift i ≠ nibbleShift j) :
    nibbleOut (nibbleIn b (nibbleShift i) v) (nibbleShift j) = nibbleOut b (nibbleShift j) := by
  unfold nibbleShift at *
  unfold nibbleOut nibbleIn
  split <;> split <;> simp_all <;>
  · apply BitVec.eq_of_getLsbD_eq
    intro j hj
    interval_cases j <;> simp

/-- Writing a nibble twice is writing it once (R49). -/
theorem nibbleIn_idem (b v : Byte) (i : Nat) :
    nibbleIn (nibbleIn b (nibbleShift i) v) (nibbleShift i) v = nibbleIn b (nibbleShift i) v := by
  unfold nibbleIn nibbleShift
  split <;>
  · apply BitVec.eq_of_getLsbD_eq
    intro j hj
    interval_cases j <;> simp

/-- Both nibbles of a packed byte are the value's upper nibble (R100). -/
theorem nibbleOut_packedByte (v : Byte) (i : Nat) : nibbleOut (packedByte v) (nibbleShift i) = v &&& 0xF0#8 := by
  unfold nibbleOut packedByte nibbleShift
  split <;>
  · apply BitVec.eq_of_getLsbD_eq
    intro j hj
    interval_cases j <;> simp

/-- `t` is `s` with exactly the pixels of `P` painted with `v`, in canonical form again. -/
structure Painted (v : Byte) (P : Nat → Nat → Prop) (s t : State) : Prop where
  frame : t = { s with buf := t.buf }
  wf : Memory.wf s.buf = true → Memory.wf t.buf = true
  bound : (∀ c ∈ s.buf, c.1 < nBytes s.config) → ∀ c ∈ t.buf, c.1 < nBytes s.config
  inside : Memory.wf s.buf = true → ∀ x y, inBounds s.config x y = true → P x y → pixelAt t x y = v &&& 0xF0#8
  outside : Memory.wf s.buf = true → ∀ x y, inBounds s.config x y = true → ¬ P x y → pixelAt t x y = pixelAt s x y
  bytes : ∀ a, (∀ x y, inBounds s.config x y = true → P x y → byteIndex (pixelIndex s.config x y) ≠ a) →
    Memory.read t.buf a = Memory.read s.buf a

theorem Painted.config_eq {v : Byte} {P : Nat → Nat → Prop} {s t : State} (h : Painted v P s t) : t.config = s.config := by
  rw [h.frame]

/-- Nothing painted. -/
theorem painted_refl (v : Byte) {P : Nat → Nat → Prop} (s : State) (hP : ∀ x y, inBounds s.config x y = true → ¬ P x y) :
    Painted v P s s :=
  ⟨rfl, id, id, fun _ x y h hp => absurd hp (hP x y h), fun _ _ _ _ _ => rfl, fun _ _ => rfl⟩

/-- Painting twice. -/
theorem Painted.trans {v : Byte} {P Q R : Nat → Nat → Prop} {s t u : State} (h1 : Painted v P s t) (h2 : Painted v Q t u)
    (hR : ∀ x y, inBounds s.config x y = true → (R x y ↔ P x y ∨ Q x y)) : Painted v R s u := by
  have hc := h1.config_eq
  refine ⟨?_, h2.wf ∘ h1.wf, fun hb => ?_, fun hm x y hi hr => ?_, fun hm x y hi hr => ?_, fun a ha => ?_⟩
  · conv_lhs => rw [h2.frame, h1.frame]
  · have := h2.bound (hc ▸ h1.bound hb)
    rwa [hc] at this
  · by_cases hq : Q x y
    · exact h2.inside (h1.wf hm) x y (hc ▸ hi) hq
    · rw [h2.outside (h1.wf hm) x y (hc ▸ hi) hq]
      exact h1.inside hm x y hi (((hR x y hi).1 hr).resolve_right hq)
  · rw [hR x y hi, not_or] at hr
    rw [h2.outside (h1.wf hm) x y (hc ▸ hi) hr.2, h1.outside hm x y hi hr.1]
  · rw [h2.bytes a fun x y hi hq => hc ▸ ha x y (hc ▸ hi) ((hR x y (hc ▸ hi)).2 (.inr hq)),
      h1.bytes a fun x y hi hp => ha x y hi ((hR x y hi).2 (.inl hp))]

/-- A pixel out of bounds is not written (R83). -/
theorem visitPixel_outside (v : Byte) {x y : Nat} {s : State} (h : inBounds s.config x y = false) :
    visitPixel v x y s = .outOfBounds s := by
  simp [visitPixel, h]

/-- A pixel in bounds is written by read-modify-write of its byte (R85). -/
theorem visitPixel_eq (v : Byte) {x y : Nat} {s : State} (hc : legalConfig s.config = true)
    (h : inBounds s.config x y = true) :
    visitPixel v x y s = .done { s with
      buf := Memory.write s.buf (byteIndex (pixelIndex s.config x y))
        (nibbleIn (Memory.read s.buf (byteIndex (pixelIndex s.config x y))) (nibbleShift (pixelIndex s.config x y)) v) } := by
  have hlt := byteIndex_lt hc h
  simp [visitPixel, h, State.bufRead, State.bufWrite, -byteIndex_eq, hlt]

/-- Writing one pixel paints it, and nothing else (R85, R86). -/
theorem visitPixel_spec (v : Byte) {x y : Nat} {s : State} (hc : legalConfig s.config = true)
    (h : inBounds s.config x y = true) :
    ∃ t, visitPixel v x y s = .done t ∧ Painted v (fun x' y' => x' = x ∧ y' = y) s t := by
  refine ⟨_, visitPixel_eq v hc h, rfl, fun hm => wf_write hm _ _, fun hb => bound_write hb (byteIndex_lt hc h) _,
    ?_, ?_, ?_⟩
  · rintro hm _ _ - ⟨rfl, rfl⟩
    simp only [pixelAt, read_write_same hm]
    exact nibbleOut_nibbleIn_same _ _ _
  · intro hm x' y' hi hne
    simp only [pixelAt, read_write hm]
    split
    · next hb =>
      rw [hb]
      refine nibbleOut_nibbleIn_other _ _ fun hs => hne ?_
      exact pixel_injective hc ((inBounds_iff _ _ _).1 hi).1 ((inBounds_iff _ _ _).1 h).1 hb hs.symm
    · rfl
  · intro a ha
    exact read_write_other _ _ (ha x y h ⟨rfl, rfl⟩).symm

/-- Visiting `n` pixels of row `y` from `x` on paints those inside the engine, and ends out of bounds if there are others
(R101). -/
theorem visitRow_spec (v : Byte) (y n x : Nat) {s : State} (hc : legalConfig s.config = true) (hy : y < heightOf s.config) :
    ∃ t, Painted v (fun x' y' => y' = y ∧ x ≤ x' ∧ x' < x + n) s t ∧
      visitRow v y n x s = if n = 0 ∨ x + n ≤ widthOf s.config then .done t else .outOfBounds t := by
  induction n generalizing x s with
  | zero => exact ⟨s, painted_refl v s fun _ _ _ h => by omega, rfl⟩
  | succ n ih =>
    by_cases hx : x < widthOf s.config
    · obtain ⟨t, ht, hp⟩ := visitPixel_spec v hc ((inBounds_iff s.config x y).2 ⟨hx, hy⟩)
      obtain ⟨u, hu, hr⟩ := ih (x + 1) (s := t) (hp.config_eq ▸ hc) (hp.config_eq ▸ hy)
      refine ⟨u, hp.trans hu fun x' y' _ => by omega, ?_⟩
      simp only [visitRow, ht, hr, hp.config_eq]
      congr 1
      simp only [eq_iff_iff]
      omega
    · have hout : inBounds s.config x y = false := by simp [inBounds]; omega
      refine ⟨s, painted_refl v s fun x' y' hi h => ?_, ?_⟩
      · have := (inBounds_iff _ _ _).1 hi
        omega
      · simp only [visitRow, visitPixel_outside v hout]
        rw [if_neg (by omega)]

/-- Visiting a rectangle whose rows fit paints the rows inside the engine, and ends out of bounds if there are others (R101). -/
theorem visitRows_spec (v : Byte) (x w n y : Nat) {s : State} (hc : legalConfig s.config = true)
    (hw : x + w ≤ widthOf s.config) (hw0 : 0 < w) :
    ∃ t, Painted v (fun x' y' => x ≤ x' ∧ x' < x + w ∧ y ≤ y' ∧ y' < y + n) s t ∧
      visitRows v x w n y s = if n = 0 ∨ y + n ≤ heightOf s.config then .done t else .outOfBounds t := by
  induction n generalizing y s with
  | zero => exact ⟨s, painted_refl v s fun _ _ _ h => by omega, rfl⟩
  | succ n ih =>
    by_cases hy : y < heightOf s.config
    · obtain ⟨t, hp, ht⟩ := visitRow_spec v y w x hc hy
      rw [if_pos (.inr hw)] at ht
      obtain ⟨u, hu, hr⟩ := ih (y + 1) (s := t) (hp.config_eq ▸ hc) (hp.config_eq ▸ hw)
      refine ⟨u, hp.trans hu fun x' y' _ => by omega, ?_⟩
      simp only [visitRows, ht, hr, hp.config_eq]
      congr 1
      simp only [eq_iff_iff]
      omega
    · obtain ⟨m, rfl⟩ : ∃ m, w = m + 1 := ⟨w - 1, by omega⟩
      have hout : inBounds s.config x y = false := by simp [inBounds]; omega
      refine ⟨s, painted_refl v s fun x' y' hi h => ?_, ?_⟩
      · have := (inBounds_iff _ _ _).1 hi
        omega
      · simp only [visitRows, visitRow, visitPixel_outside v hout]
        rw [if_neg (by omega)]

/-- Visiting no pixel changes nothing (R101). -/
theorem visitRows_empty (v : Byte) (x w n y : Nat) (s : State) (h : w = 0 ∨ n = 0) : visitRows v x w n y s = .done s := by
  induction n generalizing y with
  | zero => rfl
  | succ n ih =>
    obtain rfl : w = 0 := by omega
    simp only [visitRows, visitRow]
    exact ih (y + 1) (.inl rfl)

/-- Visiting pixels changes only the buffer, wherever it ends. -/
theorem visitPixel_frame (v : Byte) (x y : Nat) (s : State) :
    visitPixel v x y s = .noSuchByte ∨ ∃ m, visitPixel v x y s = .done { s with buf := m } ∨
      visitPixel v x y s = .outOfBounds { s with buf := m } := by
  unfold visitPixel
  split
  · simp only
    split
    · exact .inl rfl
    · unfold State.bufWrite
      split
      · exact .inl rfl
      · next h =>
        split at h
        · simp only [Option.some.injEq] at h
          subst h
          exact .inr ⟨_, .inl rfl⟩
        · simp at h
  · exact .inr ⟨s.buf, .inr rfl⟩

theorem visitRow_frame (v : Byte) (y n x : Nat) (s : State) :
    visitRow v y n x s = .noSuchByte ∨ ∃ m, visitRow v y n x s = .done { s with buf := m } ∨
      visitRow v y n x s = .outOfBounds { s with buf := m } := by
  induction n generalizing x s with
  | zero => exact .inr ⟨s.buf, .inl rfl⟩
  | succ n ih =>
    rcases visitPixel_frame v x y s with h | ⟨m, h | h⟩ <;> simp only [visitRow, h]
    · exact .inl trivial
    · rcases ih (x + 1) { s with buf := m } with h' | ⟨m', h'⟩
      · exact .inl h'
      · exact .inr ⟨m', h'⟩
    · exact .inr ⟨m, .inr rfl⟩

theorem visitRows_frame (v : Byte) (x w n y : Nat) (s : State) :
    visitRows v x w n y s = .noSuchByte ∨ ∃ m, visitRows v x w n y s = .done { s with buf := m } ∨
      visitRows v x w n y s = .outOfBounds { s with buf := m } := by
  induction n generalizing y s with
  | zero => exact .inr ⟨s.buf, .inl rfl⟩
  | succ n ih =>
    rcases visitRow_frame v y w x s with h | ⟨m, h | h⟩ <;> simp only [visitRows, h]
    · exact .inl trivial
    · rcases ih (y + 1) { s with buf := m } with h' | ⟨m', h'⟩
      · exact .inl h'
      · exact .inr ⟨m', h'⟩
    · exact .inr ⟨m, .inr rfl⟩

theorem visitPixel_outOfBounds {v : Byte} {x y : Nat} {s t : State} (h : visitPixel v x y s = .outOfBounds t) :
    inBounds s.config x y = false := by
  unfold visitPixel at h
  split at h
  · simp only at h
    split at h
    · simp at h
    · split at h <;> simp at h
  · next hin => simpa using hin

theorem visitRow_outOfBounds {v : Byte} {y n x : Nat} {s t : State} (h : visitRow v y n x s = .outOfBounds t) :
    ∃ x', x ≤ x' ∧ x' < x + n ∧ inBounds s.config x' y = false := by
  induction n generalizing x s with
  | zero => simp [visitRow] at h
  | succ n ih =>
    rcases visitPixel_frame v x y s with hp | ⟨m, hp | hp⟩
    · simp [visitRow, hp] at h
    · simp only [visitRow, hp] at h
      obtain ⟨x', h1, h2, h3⟩ := ih h
      exact ⟨x', by omega, by omega, h3⟩
    · exact ⟨x, by omega, by omega, visitPixel_outOfBounds hp⟩

/-- A fill that goes out of bounds has a pixel there. -/
theorem visitRows_outOfBounds {v : Byte} {x w n y : Nat} {s t : State} (h : visitRows v x w n y s = .outOfBounds t) :
    ∃ x' y', x ≤ x' ∧ x' < x + w ∧ y ≤ y' ∧ y' < y + n ∧ inBounds s.config x' y' = false := by
  induction n generalizing y s with
  | zero => simp [visitRows] at h
  | succ n ih =>
    rcases visitRow_frame v y w x s with hp | ⟨m, hp | hp⟩
    · simp [visitRows, hp] at h
    · simp only [visitRows, hp] at h
      obtain ⟨x', y', h1, h2, h3, h4, h5⟩ := ih h
      exact ⟨x', y', h1, h2, by omega, by omega, h5⟩
    · obtain ⟨x', h1, h2, h3⟩ := visitRow_outOfBounds hp
      exact ⟨x', y, h1, h2, by omega, by omega, h3⟩

/-- Visiting pixels keeps the memory's canonical form and bounds. -/
theorem visitRows_memory {v : Byte} {x w n y : Nat} {s t : State} (hc : legalConfig s.config = true)
    (hw : Memory.wf s.buf = true) (hb : ∀ c ∈ s.buf, c.1 < nBytes s.config)
    (h : visitRows v x w n y s = .done t ∨ visitRows v x w n y s = .outOfBounds t) :
    Memory.wf t.buf = true ∧ ∀ c ∈ t.buf, c.1 < nBytes s.config := by
  by_cases hz : w = 0 ∨ n = 0
  · rw [visitRows_empty _ _ _ _ _ _ hz] at h
    simp at h; subst h; exact ⟨hw, hb⟩
  · by_cases hx : x + w ≤ widthOf s.config
    · obtain ⟨u, hp, hu⟩ := visitRows_spec v x w n y hc hx (by omega)
      have : t = u := by rw [hu] at h; split at h <;> simp at h <;> exact h.symm
      subst this; exact ⟨hp.wf hw, hp.bound hb⟩
    · obtain ⟨m, rfl⟩ : ∃ m, n = m + 1 := ⟨n - 1, by omega⟩
      by_cases hy : y < heightOf s.config
      · obtain ⟨u, hp, hu⟩ := visitRow_spec v y w x hc hy
        rw [if_neg (by omega)] at hu
        simp [visitRows, hu] at h
        subst h; exact ⟨hp.wf hw, hp.bound hb⟩
      · obtain ⟨m, rfl⟩ : ∃ m, w = m + 1 := ⟨w - 1, by omega⟩
        have hin : inBounds s.config x y = false := by simp [inBounds]; omega
        simp [visitRows, visitRow, visitPixel_outside v hin] at h
        subst h; exact ⟨hw, hb⟩

end Sys2Proof.Machine
end

