-- ==== Sys2Proof/Laws/Transactions.lean ====
section
/-! SUPPORT. What running a transaction sequence can do: one inversion lemma for `awaitAnswer`, one for `runTransactions`, and
what `runTransactions` does on each shape of the downstream script. -/

namespace Sys2Proof.Machine

@[simp] theorem okAnswers_zero : okAnswers 0 = [] := rfl

theorem okAnswers_succ (n : Nat) : okAnswers (n + 1) = .answer .ok :: okAnswers n := rfl

@[simp] theorem exchanges_nil : exchanges [] = [] := rfl

@[simp] theorem exchanges_cons (t : Transaction) (ts : List Transaction) :
    exchanges (t :: ts) = .sent t :: .answered .ok :: exchanges ts := rfl

@[simp] theorem transactionsOf_nil : transactionsOf [] = [] := rfl

@[simp] theorem transactionsOf_append (l m : List PortEvent) :
    transactionsOf (l ++ m) = transactionsOf l ++ transactionsOf m := by simp [transactionsOf]

@[simp] theorem transactionsOf_exchanges (ts : List Transaction) : transactionsOf (exchanges ts) = ts := by
  induction ts with
  | nil => rfl
  | cons t ts ih => simpa [transactionsOf] using ih

/-- The order of the port's events can be checked piece by piece. -/
theorem portOutstanding_append (b : Bool) (l m : List PortEvent) :
    portOutstanding b (l ++ m) = (portOutstanding b l).bind (fun b => portOutstanding b m) := by
  induction l generalizing b with
  | nil => rfl
  | cons e l ih => cases b <;> cases e <;> simp [portOutstanding, ih]

@[simp] theorem portOutstanding_exchanges (ts : List Transaction) : portOutstanding false (exchanges ts) = some false := by
  induction ts with
  | nil => rfl
  | cons t ts ih => simpa [portOutstanding] using ih

@[simp] theorem abandoned_notMem_exchanges (ts : List Transaction) : PortEvent.abandoned ∉ exchanges ts := by
  induction ts with
  | nil => simp
  | cons t ts ih => simp [ih]

/-- Waiting for an answer: it came and was OK, it came and was ERR, or it did not come. -/
theorem awaitAnswer_cases (f : State → State) (s : State) :
    (∃ rest, s.iface = .answer .ok :: rest ∧
      awaitAnswer f s = f { s with iface := rest, downstream := s.downstream ++ [.answered .ok] }) ∨
    (∃ code rest, s.iface = .answer (.err code) :: rest ∧
      awaitAnswer f s = raiseTransportError (portErrorCode s.config code)
        { s with iface := rest, downstream := s.downstream ++ [.answered (.err (portErrorCode s.config code))] }) ∨
    (∃ rest, awaitAnswer f s = { s with iface := rest }) := by
  rcases h : s.iface with _ | ⟨_ | _ | _ | _, rest⟩
  · have hs : awaitAnswer f s = s := by simp [awaitAnswer, h]
    exact .inr (.inr ⟨s.iface, hs⟩)
  · rename_i a
    cases a with
    | ok => exact .inl ⟨rest, rfl, by simp [awaitAnswer, h]⟩
    | err code => exact .inr (.inl ⟨code, rest, rfl, by simp [awaitAnswer, h]⟩)
  all_goals exact .inr (.inr ⟨rest, by simp [awaitAnswer, h]⟩)

/-- How running a sequence ends: complete, held before position `n`, waiting at position `n`, or failed there. -/
theorem runTransactions_cases (i : Instr) (ts : List Transaction) (k : Nat) (s : State) :
    ∃ pre post rest, ts = pre ++ post ∧
      ((post = [] ∧ runTransactions i ts k s =
          { s with iface := rest, op := none, downstream := s.downstream ++ exchanges pre,
                   responses := s.responses ++ [responseWord .ok 0#16 0#32] }) ∨
       (post ≠ [] ∧ runTransactions i ts k s =
          { s with iface := rest, op := some ⟨i, k + pre.length, false⟩, downstream := s.downstream ++ exchanges pre }) ∨
       (∃ t post', post = t :: post' ∧ runTransactions i ts k s =
          { s with iface := rest, op := some ⟨i, k + pre.length, true⟩,
                   downstream := s.downstream ++ exchanges pre ++ [.sent t] }) ∨
       (∃ t post' e, post = t :: post' ∧ runTransactions i ts k s =
          { s with iface := rest, op := none, downstream := s.downstream ++ exchanges pre ++ [.sent t, .answered (.err e)],
                   responses := s.responses ++ [responseWord .transportError 0#16 e] })) := by
  induction ts generalizing k s with
  | nil => exact ⟨[], [], s.iface, rfl, .inl ⟨rfl, by simp [runTransactions, State.respond]⟩⟩
  | cons t ts ih =>
    have hrun : (∃ rest, runTransactions i (t :: ts) k s = { s with iface := rest, op := some ⟨i, k, false⟩ }) ∨
        runTransactions i (t :: ts) k s = awaitAnswer (runTransactions i ts (k + 1)) (s.send i k t) := by
      unfold runTransactions
      split
      · exact .inl ⟨_, rfl⟩
      · exact .inr rfl
    rcases hrun with ⟨rest, hrun⟩ | hrun
    · exact ⟨[], t :: ts, rest, rfl, .inr (.inl ⟨by simp, by simp [hrun]⟩)⟩
    · rw [hrun]
      rcases awaitAnswer_cases (runTransactions i ts (k + 1)) (s.send i k t) with ⟨rest, -, h⟩ | ⟨code, rest, -, h⟩ | ⟨rest, h⟩
      · obtain ⟨pre, post, rest', rfl, hcases⟩ := ih (k + 1)
          { s.send i k t with iface := rest, downstream := (s.send i k t).downstream ++ [.answered .ok] }
        refine ⟨t :: pre, post, rest', rfl, ?_⟩
        rw [h]
        rcases hcases with ⟨hp, h'⟩ | ⟨hp, h'⟩ | ⟨u, post', hp, h'⟩ | ⟨u, post', e, hp, h'⟩
        · exact .inl ⟨hp, by rw [h']; simp [State.send]⟩
        · exact .inr (.inl ⟨hp, by rw [h']; simp [State.send]; omega⟩)
        · exact .inr (.inr (.inl ⟨u, post', hp, by rw [h']; simp [State.send]; omega⟩))
        · exact .inr (.inr (.inr ⟨u, post', e, hp, by rw [h']; simp [State.send]⟩))
      · exact ⟨[], t :: ts, rest, rfl, .inr (.inr (.inr ⟨t, ts, portErrorCode s.config code, rfl, by
          rw [h]; simp [State.send, raiseTransportError, State.respond]⟩))⟩
      · exact ⟨[], t :: ts, rest, rfl, .inr (.inr (.inl ⟨t, ts, rfl, by rw [h]; simp [State.send]⟩))⟩

/-- Running a sequence changes only the operation, the port events, the responses and the downstream script. -/
theorem runTransactions_frame (i : Instr) (ts : List Transaction) (k : Nat) (s : State) :
    (runTransactions i ts k s).config = s.config ∧ (runTransactions i ts k s).buf = s.buf ∧
    (runTransactions i ts k s).fault = s.fault ∧ (runTransactions i ts k s).host = s.host ∧
    (runTransactions i ts k s).abandoned = s.abandoned ∧ (runTransactions i ts k s).violated = s.violated := by
  obtain ⟨_, _, _, -, ⟨-, h⟩ | ⟨-, h⟩ | ⟨_, _, -, h⟩ | ⟨_, _, _, -, h⟩⟩ := runTransactions_cases i ts k s <;> simp [h]

/-- Waiting for an answer changes no more than what comes after it. -/
theorem awaitAnswer_frame (f : State → State) (s : State)
    (hf : ∀ u, (f u).config = u.config ∧ (f u).buf = u.buf ∧ (f u).fault = u.fault ∧ (f u).host = u.host ∧
      (f u).abandoned = u.abandoned ∧ (f u).violated = u.violated) :
    (awaitAnswer f s).config = s.config ∧ (awaitAnswer f s).buf = s.buf ∧ (awaitAnswer f s).fault = s.fault ∧
    (awaitAnswer f s).host = s.host ∧ (awaitAnswer f s).abandoned = s.abandoned ∧
    (awaitAnswer f s).violated = s.violated := by
  rcases awaitAnswer_cases f s with ⟨_, _, h⟩ | ⟨_, _, _, h⟩ | ⟨_, h⟩ <;> rw [h]
  · exact hf _
  · simp [raiseTransportError]
  · simp

/-- Running a sequence takes the downstream script from the front. -/
theorem runTransactions_iface (i : Instr) (ts : List Transaction) (k : Nat) (s : State) :
    ∃ taken, s.iface = taken ++ (runTransactions i ts k s).iface := by
  induction ts generalizing k s with
  | nil => exact ⟨[], rfl⟩
  | cons t ts ih =>
    unfold runTransactions
    split
    · next rest h => exact ⟨[.hold], h⟩
    · unfold awaitAnswer
      split
      · next rest h =>
        obtain ⟨taken, htaken⟩ := ih (k + 1)
          { s.send i k t with iface := rest, downstream := (s.send i k t).downstream ++ [.answered .ok] }
        exact ⟨.answer .ok :: taken, h.trans (congrArg _ htaken)⟩
      · next code rest h => exact ⟨[.answer (.err code)], h⟩
      · next a rest h => exact ⟨[.late a], h⟩
      · next rest h => exact ⟨[.silent], h⟩
      · next rest h => exact ⟨[.hold], h⟩
      · next h => exact ⟨[], rfl⟩

/-- Running a sequence does not depend on the operation field, as long as something is left to run. -/
theorem runTransactions_op (i : Instr) (t : Transaction) (ts : List Transaction) (k : Nat) (s : State)
    (o : Option Operation) : runTransactions i (t :: ts) k { s with op := o } = runTransactions i (t :: ts) k s := by
  unfold runTransactions
  rfl

/-- With the next `pre.length` answers OK, a sequence runs through `pre` and goes on with the rest. -/
theorem runTransactions_through (i : Instr) (pre post : List Transaction) (k : Nat) (s : State) (rest : List IfaceInput)
    (hpost : post ≠ []) (h : s.iface = okAnswers pre.length ++ rest) :
    runTransactions i (pre ++ post) k s = runTransactions i post (k + pre.length)
      { s with iface := rest, downstream := s.downstream ++ exchanges pre } := by
  induction pre generalizing k s with
  | nil =>
    simp only [List.length_nil, okAnswers_zero, List.nil_append] at h
    simp [← h]
  | cons t pre ih =>
    rw [List.length_cons, okAnswers_succ, List.cons_append] at h
    have hstep : runTransactions i (t :: pre ++ post) k s = runTransactions i (pre ++ post) (k + 1)
        { s.send i k t with
          iface := okAnswers pre.length ++ rest
          downstream := s.downstream ++ [.sent t] ++ [.answered .ok] } := by
      simp [runTransactions, h, awaitAnswer]
    rw [hstep, ih (k + 1) _ rfl]
    obtain ⟨u, us, rfl⟩ := List.exists_cons_of_ne_nil hpost
    rw [← runTransactions_op i u us _ { s with iface := rest, downstream := s.downstream ++ exchanges (t :: pre) }
      (some ⟨i, k, true⟩)]
    simp [State.send, Nat.add_comm, Nat.add_left_comm]

/-- With every answer OK, the whole sequence is emitted and the response is OK. -/
theorem runTransactions_allOk (i : Instr) (ts : List Transaction) (k : Nat) (s : State) (rest : List IfaceInput)
    (h : s.iface = okAnswers ts.length ++ rest) :
    runTransactions i ts k s =
      { s with iface := rest, op := none, downstream := s.downstream ++ exchanges ts,
               responses := s.responses ++ [responseWord .ok 0#16 0#32] } := by
  induction ts generalizing k s with
  | nil =>
    simp only [List.length_nil, okAnswers_zero, List.nil_append] at h
    simp [runTransactions, State.respond, ← h]
  | cons t ts ih =>
    rw [List.length_cons, okAnswers_succ, List.cons_append] at h
    have hstep : runTransactions i (t :: ts) k s = runTransactions i ts (k + 1)
        { s.send i k t with
          iface := okAnswers ts.length ++ rest
          downstream := s.downstream ++ [.sent t] ++ [.answered .ok] } := by
      simp [runTransactions, h, awaitAnswer]
    rw [hstep, ih (k + 1) _ rfl]
    simp [State.send]

/-- The first transaction answered ERR: the response is TRANSPORT_ERROR. -/
theorem runTransactions_err (i : Instr) (t : Transaction) (ts : List Transaction) (k : Nat) (s : State)
    (code : BitVec 32) (rest : List IfaceInput) (h : s.iface = .answer (.err code) :: rest) :
    runTransactions i (t :: ts) k s =
      { s with iface := rest, op := none,
               downstream := s.downstream ++ [.sent t, .answered (.err (portErrorCode s.config code))],
               responses := s.responses ++ [responseWord .transportError 0#16 (portErrorCode s.config code)] } := by
  simp [runTransactions, h, awaitAnswer, raiseTransportError, State.respond, State.send]

/-- The first transaction not answered: the operation waits there. -/
theorem runTransactions_silent (i : Instr) (t : Transaction) (ts : List Transaction) (k : Nat) (s : State)
    (rest : List IfaceInput) (h : s.iface = .silent :: rest) :
    runTransactions i (t :: ts) k s =
      { s with iface := rest, op := some ⟨i, k, true⟩, downstream := s.downstream ++ [.sent t] } := by
  simp [runTransactions, h, awaitAnswer, State.send]

/-- A late answer to an abandoned transaction is no answer to the first one (R190): the operation waits there. -/
theorem runTransactions_late (i : Instr) (t : Transaction) (ts : List Transaction) (k : Nat) (s : State) (a : Answer)
    (rest : List IfaceInput) (h : s.iface = .late a :: rest) :
    runTransactions i (t :: ts) k s =
      { s with iface := rest, op := some ⟨i, k, true⟩, downstream := s.downstream ++ [.sent t] } := by
  simp [runTransactions, h, awaitAnswer, State.send]

/-- The first transaction held back: the operation stands before it. -/
theorem runTransactions_hold (i : Instr) (t : Transaction) (ts : List Transaction) (k : Nat) (s : State)
    (rest : List IfaceInput) (h : s.iface = .hold :: rest) :
    runTransactions i (t :: ts) k s = { s with iface := rest, op := some ⟨i, k, false⟩ } := by
  simp [runTransactions, h]

/-- An error code of TE_BITS bits passes the port unchanged (R174). -/
theorem portErrorCode_of_lt {c : EngineConfig} {e : BitVec 32} (h : e.toNat < 2 ^ c.teBits.toNat) :
    portErrorCode c e = e := by
  simp [portErrorCode, Nat.mod_eq_of_lt h]

end Sys2Proof.Machine
end

