-- ==== Sys2Proof/Laws/Sequences.lean ====
section
/-! SUPPORT. The transaction sequence of each operation (R110, R119, R144 to R149): what it is in a legal configuration, and
what it reads. -/

namespace Sys2Proof.Machine

/-- A read of the whole buffer succeeds (R110). -/
theorem memRead_all (s : State) :
    s.memRead 0 (nBytes s.config) = some ((List.range (nBytes s.config)).map (Memory.read s.buf)) := by
  simp [State.memRead]

/-- A read inside the buffer succeeds. -/
theorem memRead_of_le {s : State} {a n : Nat} (h : a + n ≤ nBytes s.config) :
    s.memRead a n = some ((List.range n).map fun k => Memory.read s.buf (a + k)) := by
  simp [State.memRead, h]

/-- FLUSH's three transactions (R110). -/
theorem flushSequence_eq (s : State) : flushSequence s =
    some [lower s.config.opc (.setCol 0#8), lower s.config.opc (.setRow 0#8),
      .data ((List.range (nBytes s.config)).map (Memory.read s.buf))] := by
  simp [flushSequence, jobTransactions, flushJob, memRead_all]

/-- INIT_DISPLAY's sixteen (R144). -/
theorem initSequence_eq (s : State) : initSequence s =
    some ((initCommands s.config).map (lower s.config.opc) ++
      [lower s.config.opc (.setCol 0#8), lower s.config.opc (.setRow 0#8),
        .data ((List.range (nBytes s.config)).map (Memory.read s.buf))]) := by
  simp [initSequence, jobTransactions, flushJob, memRead_all]

/-- The transactions of a list of jobs whose bytes are all in the buffer (R115, R119). -/
theorem jobListTransactions_eq {s : State} {jobs : List Job} (h : ∀ j ∈ jobs, j.off + j.len ≤ nBytes s.config) :
    jobListTransactions s jobs = some (jobs.flatMap fun j =>
      [lower s.config.opc (.setCol (BitVec.ofNat 8 j.col)), lower s.config.opc (.setRow (BitVec.ofNat 8 j.row)),
        .data ((List.range j.len).map fun k => Memory.read s.buf (j.off + k))]) := by
  induction jobs with
  | nil => rfl
  | cons j js ih =>
    have hj := memRead_of_le (h j (by simp))
    have ih := ih fun j' hj' => h j' (by simp [hj'])
    simp [jobListTransactions, jobTransactions, hj, ih]

/-- Sequences depend on the configuration and the buffer alone (R29, R111). -/
theorem sequenceOf_congr (i : Instr) (s t : State) (hc : t.config = s.config) (hb : t.buf = s.buf) :
    sequenceOf i t = sequenceOf i s := by
  have hm : ∀ a n, t.memRead a n = s.memRead a n := fun a n => by simp [State.memRead, hc, hb]
  have hj : ∀ j, jobTransactions t j = jobTransactions s j := fun j => by simp [jobTransactions, hm, hc]
  have hl : ∀ js, jobListTransactions t js = jobListTransactions s js := fun js => by
    induction js with
    | nil => rfl
    | cons j js ih => simp [jobListTransactions, hj, ih]
  cases i <;>
    simp [sequenceOf, flushSequence, partialFlushSequence, initSequence, displayOnSequence, displayOffSequence,
      setContrastSequence, setInvertedSequence, hj, hl, hc]

/-- The same, for a state that shares the configuration and the buffer with one whose sequence is known. -/
theorem sequenceOf_transfer {i : Instr} {s t : State} {ts : List Transaction} (h : sequenceOf i s = some ts)
    (hc : t.config = s.config) (hb : t.buf = s.buf) : sequenceOf i t = some ts :=
  (sequenceOf_congr i s t hc hb).trans h

end Sys2Proof.Machine
end

