-- ==== Sys2Proof/Laws/Exec.lean ====
section
/-! SUPPORT. What executing an instruction can do, said once: one inversion lemma for `exec`, one for `step`. -/

namespace Sys2Proof.Machine

/-- How an instruction ends, when it does not fault: it answers OK from memory alone, it takes OutOfBounds, or it runs its
transaction sequence. -/
inductive Executed (i : Instr) (s : State) : State → Prop where
  | answered (value : BitVec 16) (m : Memory) (hport : usesPort i = false)
      (hm : writesBuffer i = true ∨ m = s.buf) : Executed i s (({ s with buf := m } : State).respond .ok value 0#32)
  | outOfBounds (m : Memory) (hport : usesPort i = false) (hcheck : checksBounds i = true)
      (hm : writesBuffer i = true ∨ m = s.buf) : Executed i s (raiseOutOfBounds { s with buf := m })
  | ran (ts : List Transaction) (hport : usesPort i = true) (hseq : sequenceOf i s = some ts) :
      Executed i s (runTransactions i ts 0 s)

/-- The result of visiting pixels, as an outcome. -/
theorem finishVisit_executed {i : Instr} {s t : State} {r : Visit} (hport : usesPort i = false)
    (hcheck : checksBounds i = true) (hw : writesBuffer i = true)
    (hr : r = .noSuchByte ∨ ∃ m, r = .done { s with buf := m } ∨ r = .outOfBounds { s with buf := m })
    (h : finishVisit r = .next t) : Executed i s t := by
  rcases hr with rfl | ⟨m, rfl | rfl⟩ <;> simp only [finishVisit, Host.Outcome.next.injEq, reduceCtorEq] at h
  · subst h
    exact .answered _ m hport (.inl hw)
  · subst h
    exact .outOfBounds m hport hcheck (.inl hw)

theorem startOperation_executed {i : Instr} {s t : State} {sq : Option (List Transaction)} (hport : usesPort i = true)
    (hseq : sequenceOf i s = sq) (h : startOperation i sq s = .next t) : Executed i s t := by
  unfold startOperation at h
  split at h
  · simp at h
  · simp only [Host.Outcome.next.injEq] at h
    subst h
    exact .ran _ hport hseq

/-- What `exec` does when it answers a next state. -/
theorem exec_executed {i : Instr} {s t : State} (h : exec i s = .next t) : Executed i s t := by
  cases i with
  | getWidth =>
    simp only [exec, execGetWidth, Host.Outcome.next.injEq] at h
    subst h
    exact .answered _ s.buf rfl (.inr rfl)
  | getHeight =>
    simp only [exec, execGetHeight, Host.Outcome.next.injEq] at h
    subst h
    exact .answered _ s.buf rfl (.inr rfl)
  | getPixel x y =>
    simp only [exec, execGetPixel] at h
    split at h
    · split at h
      · simp at h
      · simp only [Host.Outcome.next.injEq] at h
        subst h
        exact .answered _ s.buf rfl (.inr rfl)
    · simp only [Host.Outcome.next.injEq] at h
      subst h
      exact .outOfBounds s.buf rfl rfl (.inr rfl)
  | setPixel x y v => exact finishVisit_executed rfl rfl rfl (visitPixel_frame v x y s) h
  | fill v =>
    simp only [exec, execFill, Host.Outcome.next.injEq] at h
    subst h
    exact .answered _ _ rfl (.inl rfl)
  | partialFill x y w h' v => exact finishVisit_executed rfl rfl rfl (visitRows_frame v x w h' y s) h
  | flush => exact startOperation_executed rfl rfl h
  | partialFlush x y w h' => exact startOperation_executed rfl rfl h
  | initDisplay => exact startOperation_executed rfl rfl h
  | displayOn => exact startOperation_executed rfl rfl h
  | displayOff => exact startOperation_executed rfl rfl h
  | setContrast c => exact startOperation_executed rfl rfl h
  | setInverted b => exact startOperation_executed rfl rfl h

/-- An operation with a transaction sequence runs it. -/
theorem exec_of_sequence {i : Instr} {s : State} {ts : List Transaction} (hport : usesPort i = true)
    (h : sequenceOf i s = some ts) : exec i s = .next (runTransactions i ts 0 s) := by
  cases i <;> simp only [usesPort, Bool.false_eq_true] at hport <;>
    simp only [sequenceOf] at h <;>
    simp [exec, execFlush, execPartialFlush, execInitDisplay, execDisplayOn, execDisplayOff, execSetContrast,
      execSetInverted, startOperation, h]

/-- Going on with an operation, from its position. -/
def Resumed (o : Operation) (ts : List Transaction) (s : State) : State :=
  if o.pending then awaitAnswer (runTransactions o.request (ts.drop (o.step + 1)) (o.step + 1)) s
  else runTransactions o.request (ts.drop o.step) o.step s

/-- An operation leaves the configuration, the host's script and the run's two marks. -/
theorem executed_frame {i : Instr} {s t : State} (h : Executed i s t) :
    t.config = s.config ∧ t.host = s.host ∧ t.abandoned = s.abandoned ∧ t.violated = s.violated := by
  cases h with
  | answered => simp
  | outOfBounds => simp
  | ran ts _ _ =>
    obtain ⟨hc, -, -, hh, ha⟩ := runTransactions_frame i ts 0 s
    exact ⟨hc, hh, ha⟩

/-- Going on with an operation leaves the configuration, the buffer, FAULT, the host's script and the run's two
marks. -/
theorem resumed_frame (o : Operation) (ts : List Transaction) (s : State) :
    (Resumed o ts s).config = s.config ∧ (Resumed o ts s).buf = s.buf ∧ (Resumed o ts s).fault = s.fault ∧
    (Resumed o ts s).host = s.host ∧ (Resumed o ts s).abandoned = s.abandoned ∧ (Resumed o ts s).violated = s.violated := by
  unfold Resumed
  split
  · exact awaitAnswer_frame _ _ fun u => runTransactions_frame _ _ _ u
  · exact runTransactions_frame _ _ _ _

/-- Every operation keeps the memory's canonical form and bounds. -/
theorem exec_memory {i : Instr} {s t : State} (hc : legalConfig s.config = true) (hw : Memory.wf s.buf = true)
    (hb : ∀ c ∈ s.buf, c.1 < nBytes s.config) (h : exec i s = .next t) :
    Memory.wf t.buf = true ∧ ∀ c ∈ t.buf, c.1 < nBytes s.config := by
  by_cases hwr : writesBuffer i = true
  · cases i <;> simp [writesBuffer] at hwr
    case setPixel x y v =>
      by_cases hin : inBounds s.config x y = true
      · obtain ⟨u, hu, hp⟩ := visitPixel_spec v hc hin
        simp only [exec, execSetPixel, hu, finishVisit, Host.Outcome.next.injEq] at h
        subst h
        exact ⟨hp.wf hw, hp.bound hb⟩
      · simp only [Bool.not_eq_true] at hin
        simp only [exec, execSetPixel, visitPixel_outside v hin, finishVisit, Host.Outcome.next.injEq] at h
        subst h
        rw [raiseOutOfBounds_buf]
        exact ⟨hw, hb⟩
    case fill v =>
      simp only [exec, execFill, Host.Outcome.next.injEq] at h
      subst h
      exact ⟨wf_fill hw _ _, bound_fill hb _⟩
    case partialFill x y w n v =>
      simp only [exec, execPartialFill] at h
      cases hv : visitRows v x w n y s with
      | noSuchByte => simp [hv, finishVisit] at h
      | done u =>
        simp only [hv, finishVisit, Host.Outcome.next.injEq] at h
        subst h
        simpa using visitRows_memory hc hw hb (.inl hv)
      | outOfBounds u =>
        simp only [hv, finishVisit, Host.Outcome.next.injEq] at h
        subst h
        simpa using visitRows_memory hc hw hb (.inr hv)
  · cases exec_executed h with
    | answered v m _ hm => obtain rfl := hm.resolve_left hwr; exact ⟨hw, hb⟩
    | outOfBounds m _ _ hm => obtain rfl := hm.resolve_left hwr; rw [raiseOutOfBounds_buf]; exact ⟨hw, hb⟩
    | ran ts _ _ => rw [(runTransactions_frame i ts 0 s).2.1]; exact ⟨hw, hb⟩

/-- How a step ends, when it answers a next state. -/
inductive Stepped (s : State) : State → Prop where
  | reset (c : EngineConfig) (rest : List HostInput) (hhost : s.host = .reset c :: rest) (hlegal : legalConfig c = true) :
      Stepped s (applyReset c s.dropHost)
  | illegal (word : RequestWord) (rest : List HostInput) (hhost : s.host = .request word :: rest) (hbusy : s.busy = false)
      (hword : ∃ e, decode word = .error e) : Stepped s (raiseIllegalOp s.dropHost)
  | executed (word : RequestWord) (rest : List HostInput) (i : Instr) (t : State) (hhost : s.host = .request word :: rest)
      (hbusy : s.busy = false) (hword : decode word = .ok i) (hexec : exec i s.dropHost = .next t) : Stepped s t
  | idle (hreset : ∀ c rest, s.host ≠ .reset c :: rest) : Stepped s s
  | resumed (o : Operation) (ts : List Transaction) (hreset : ∀ c rest, s.host ≠ .reset c :: rest)
      (hfault : s.fault = faultNone) (hop : s.op = some o) (hseq : sequenceOf o.request s = some ts) :
      Stepped s (Resumed o ts s)

theorem engineMove_stepped {s t : State} (hreset : ∀ c rest, s.host ≠ .reset c :: rest) (h : engineMove s = .next t) :
    Stepped s t := by
  unfold engineMove at h
  split at h
  · next hf =>
    split at h
    · simp only [Host.Outcome.next.injEq] at h
      subst h
      exact .idle hreset
    · next o ho =>
      unfold resumeOperation at h
      split at h
      · simp at h
      · next ts hts =>
        have : t = Resumed o ts s := by
          unfold Resumed
          split at h <;> split <;> simp_all
        subst this
        exact .resumed o ts hreset hf ho hts
  · simp only [Host.Outcome.next.injEq] at h
    subst h
    exact .idle hreset

/-- What `step` does when it answers a next state. -/
theorem step_stepped {s t : State} (h : step s = .next t) : Stepped s t := by
  unfold step machineMove at h
  split at h
  · next c rest hh =>
    unfold hostReset at h
    split at h
    · next hl =>
      simp only [Host.Outcome.next.injEq] at h
      subst h
      exact .reset c rest hh hl
    · simp at h
  · next word rest hh =>
    have hreset : ∀ c rest, s.host ≠ .reset c :: rest := by simp [hh]
    split at h
    · exact engineMove_stepped hreset h
    · next hb =>
      simp only [Bool.not_eq_true] at hb
      unfold acceptRequest at h
      split at h
      · next i hd => exact .executed word rest i t hh hb hd h
      · next e hd =>
        simp only [Host.Outcome.next.injEq] at h
        subst h
        exact .illegal word rest hh hb ⟨e, hd⟩
  · next hh => exact engineMove_stepped (by simp [hh]) h

/-- With no reset presented, a busy engine makes its own move. -/
theorem step_of_busy {s : State} (hreset : ∀ c rest, s.host ≠ .reset c :: rest) (hb : s.busy = true) :
    step s = engineMove s := by
  unfold step machineMove
  split
  · next c rest hh => exact absurd hh (hreset c rest)
  · rw [if_pos hb]
  · rfl

/-- With an operation in progress and no fault, the engine goes on with it. -/
theorem engineMove_of_op {s : State} {o : Operation} {ts : List Transaction} (hf : s.fault = faultNone)
    (ho : s.op = some o) (hseq : sequenceOf o.request s = some ts) : engineMove s = .next (Resumed o ts s) := by
  unfold engineMove
  rw [if_pos hf]
  split
  · next h => simp [ho] at h
  · next o' h =>
    rw [ho] at h
    simp only [Option.some.injEq] at h
    subst h
    unfold resumeOperation Resumed
    rw [hseq]
    simp only
    split <;> rfl

end Sys2Proof.Machine
end

