-- ==== Sys2Proof/Laws/PerInstr.lean ====
section
/-! SUPPORT. Statements about the syntax of every instruction, one lemma per constructor. EncodeHeader: the word of an
instruction carries the instruction's opcode in OP, and zero in RSV (R61, R63). -/

/-- The header of an instruction's word (R61, R63). -/
def Sys2Proof.Laws.EncodeHeader.Statement (i : Sys2Proof.Instr) : Prop :=
  (Sys2Proof.splitWord (Sys2Proof.encode i)).op = i.opcode ∧ (Sys2Proof.splitWord (Sys2Proof.encode i)).rsv = 0#16

namespace Sys2Proof.Laws.EncodeHeader

theorem of_fields (i : Instr) (hop : i.fields.op = i.opcode) (hrsv : i.fields.rsv = 0#16) : Statement i := by
  unfold Statement encode
  rw [splitWord_joinWord]
  exact ⟨hop, hrsv⟩

theorem getWidth : Statement .getWidth := of_fields _ rfl rfl
theorem getHeight : Statement .getHeight := of_fields _ rfl rfl
theorem getPixel (x y : Nat) : Statement (.getPixel x y) := of_fields _ rfl rfl
theorem setPixel (x y : Nat) (v : Byte) : Statement (.setPixel x y v) := of_fields _ rfl rfl
theorem fill (v : Byte) : Statement (.fill v) := of_fields _ rfl rfl
theorem partialFill (x y w h : Nat) (v : Byte) : Statement (.partialFill x y w h v) := of_fields _ rfl rfl
theorem flush : Statement .flush := of_fields _ rfl rfl
theorem partialFlush (x y w h : Nat) : Statement (.partialFlush x y w h) := of_fields _ rfl rfl
theorem initDisplay : Statement .initDisplay := of_fields _ rfl rfl
theorem displayOn : Statement .displayOn := of_fields _ rfl rfl
theorem displayOff : Statement .displayOff := of_fields _ rfl rfl
theorem setContrast (c : Byte) : Statement (.setContrast c) := of_fields _ rfl rfl
theorem setInverted (b : Bool) : Statement (.setInverted b) := of_fields _ rfl rfl

end Sys2Proof.Laws.EncodeHeader
end

