-- ==== Sys2Proof/Laws/Response.lean ====
section
/-! SUPPORT. The fields of a response word (R66, R67), and the response words the operations send, written out. -/

namespace Sys2Proof.Machine

@[simp] theorem statusField_responseWord (st : Status) (v : BitVec 16) (e : BitVec 32) :
    statusField (responseWord st v e) = statusCode st := by
  unfold statusField responseWord
  rw [extract_append_low _ _ (by decide), extract_append_low _ _ (by decide), extract_append_low _ _ (by decide)]
  cases st <;> rfl

@[simp] theorem valueField_responseWord (st : Status) (v : BitVec 16) (e : BitVec 32) :
    valueField (responseWord st v e) = v := by
  unfold valueField responseWord
  rw [extract_append_low _ _ (by decide), extract_append_low _ _ (by decide), extract_append_high _ _ (by decide)]
  simp

@[simp] theorem reservedField_responseWord (st : Status) (v : BitVec 16) (e : BitVec 32) :
    reservedField (responseWord st v e) = 0#8 := by
  unfold reservedField responseWord
  rw [extract_append_low _ _ (by decide), extract_append_high _ _ (by decide)]
  simp

@[simp] theorem errField_responseWord (st : Status) (v : BitVec 16) (e : BitVec 32) :
    errField (responseWord st v e) = e := by
  unfold errField responseWord
  rw [extract_append_high _ _ (by decide)]
  simp

/-- The response of an operation that completes without a value. -/
theorem responseWord_ok : responseWord .ok 0#16 0#32 = 0x0000000000000000#64 := by decide

/-- The response of an operation that completes with a value. -/
theorem responseWord_value (v : BitVec 16) : responseWord .ok v 0#32 = 0x00000000#32 ++ 0x00#8 ++ v ++ 0x00#8 := by
  unfold responseWord statusCode
  apply BitVec.eq_of_toNat_eq
  have h1 : (0#32 ++ (0#8 ++ (v ++ 0#8)) : BitVec (32 + (8 + (16 + 8)))).toNat = v.toNat <<< 8 := by
    rw [BitVec.toNat_append, BitVec.toNat_append, BitVec.toNat_append]; simp
  have h2 : (0#32 ++ 0#8 ++ v ++ 0#8 : BitVec (32 + 8 + 16 + 8)).toNat = v.toNat <<< 8 := by
    rw [BitVec.toNat_append, BitVec.toNat_append, BitVec.toNat_append]; simp
  exact h1.trans h2.symm

/-- The response of a transport error. -/
theorem responseWord_transportError (e : BitVec 32) : responseWord .transportError 0#16 e = e ++ 0x00000001#32 := by
  unfold responseWord
  congr 1

/-- A response word is legal when it carries no error code, or reports a transport error. -/
theorem responseLegal_responseWord (st : Status) (v : BitVec 16) (e : BitVec 32) (h : st = .transportError ∨ e = 0#32) :
    responseLegal (responseWord st v e) = true := by
  unfold responseLegal
  rw [statusField_responseWord, reservedField_responseWord, errField_responseWord]
  rcases h with rfl | rfl
  · simp [statusCode]
  · cases st <;> simp [statusCode]

/-- Taking OutOfBounds is the effect that claims write out. -/
theorem raiseOutOfBounds_eq (s : State) : raiseOutOfBounds s = outOfBoundsEffect s := by
  unfold raiseOutOfBounds outOfBoundsEffect
  split <;> rfl

end Sys2Proof.Machine
end

