-- ==== Sys2Proof/Laws/Window.lean ====
section
/-! SUPPORT. The window encoder in a legal configuration (R113, R116 to R119): the alignment by parity, the jobs by row, and
the transactions they become. -/

namespace Sys2Proof.Machine

/-- The alignment of R113, by the parity of x. -/
theorem alignLeft_eq {c : EngineConfig} (hc : legalConfig c = true) (x y w : Nat) :
    (nibbleShift (pixelIndex c x y) = 0 ↔ x % 2 = 1) ∧
    alignLeft c x y w = (if x % 2 = 1 then (x - 1, w + 1) else (x, w)) := by
  obtain ⟨k, hk, _⟩ := widthOf_even hc
  have := nibbleShift_pixel hk x y
  unfold alignLeft
  rw [this]
  rcases Nat.mod_two_eq_zero_or_one x with h | h <;> simp [h]

/-- The jobs of R116 and R117, with offsets counted in half widths. -/
theorem windowJobs_eq {c : EngineConfig} {k : Nat} (hk : widthOf c = 2 * k) (d : Window) : windowJobs c d =
    if d.w = widthOf c then [⟨columnValue c d.x, d.y, d.x / 2 + d.y * k, d.w * d.h * 4 / 8⟩]
    else (List.range d.h).map fun i => ⟨columnValue c d.x, d.y + i, d.x / 2 + (d.y + i) * k, (d.w + 1) / 2⟩ := by
  unfold windowJobs jobAt
  simp only [byteIndex_pixel hk]
  have : (d.w * 4 + 4) / 8 = (d.w + 1) / 2 := by omega
  rw [this]

/-- Every job's bytes are in the buffer (R121). -/
theorem windowJobs_inside {c : EngineConfig} {x y w h : Nat} {d : Window} (hc : legalConfig c = true)
    (hd : dirtyWindow c x y w h = some d) : ∀ j ∈ windowJobs c d, j.off + j.len ≤ nBytes c := by
  obtain ⟨_, _, h1, h2, h3, h4⟩ := dirtyWindow_spec hc hd
  obtain ⟨k, hk, hk1⟩ := widthOf_even hc
  rw [windowJobs_eq hk, nBytes_even hk]
  intro j hj
  split at hj
  · next hw =>
    simp only [List.mem_singleton] at hj
    subst hj
    simp only
    have hlen : d.w * d.h * 4 / 8 = k * d.h := by
      rw [hw, hk]
      have : 2 * k * d.h * 4 = 8 * (k * d.h) := by ring
      omega
    have hx : d.x = 0 := by omega
    rw [hlen, hx]
    calc 0 / 2 + d.y * k + k * d.h = (d.y + d.h) * k := by rw [Nat.zero_div]; ring
      _ ≤ heightOf c * k := Nat.mul_le_mul_right k (by omega)
  · obtain ⟨i, hi, rfl⟩ := List.mem_map.1 hj
    have := List.mem_range.1 hi
    simp only
    calc d.x / 2 + (d.y + i) * k + (d.w + 1) / 2 ≤ (d.y + i) * k + k := by omega
      _ = (d.y + i + 1) * k := by ring
      _ ≤ heightOf c * k := Nat.mul_le_mul_right k (by omega)

/-- The transactions of PARTIAL_FLUSH for a rectangle that is not outside the engine (R115, R119). -/
theorem partialFlushSequence_eq {s : State} {x y w h : Nat} {d : Window} (hc : legalConfig s.config = true)
    (hd : dirtyWindow s.config x y w h = some d) :
    partialFlushSequence x y w h s = some ((windowJobs s.config d).flatMap fun j =>
      [lower s.config.opc (.setCol (BitVec.ofNat 8 j.col)), lower s.config.opc (.setRow (BitVec.ofNat 8 j.row)),
        .data ((List.range j.len).map fun k => Memory.read s.buf (j.off + k))]) := by
  unfold partialFlushSequence windowEncode
  rw [hd]
  exact jobListTransactions_eq (windowJobs_inside hc hd)

end Sys2Proof.Machine
end

