-- ==== Sys2Proof/Tests/Slice0.lean ====
section
/-! SUPPORT. Tests and witnesses. Expected values come from 95_test_vectors.md (its section or vector is named), or are written
out from the encoding rules. Witnesses show that the hypotheses of each obligation can be met, at boundary values. -/

open Sys2Proof Sys2Proof.Machine

namespace Sys2Proof.Tests

/-! ### Helpers -/

/-- Opcode bytes passed as arguments, as R142 asks: its third column, which is not the document's. -/
def opcodes : Opcodes where
  displayOff := 0xAE#8
  displayOn := 0xAF#8
  colLow := 0x00#8
  colHigh := 0x10#8
  rowAddr := 0xB0#8
  startLine := 0x40#8
  remapOff := 0xA0#8
  remapOn := 0xA1#8
  muxRatio := 0xA8#8
  scanNormal := 0xC0#8
  scanRemapped := 0xC8#8
  displayOffset := 0xD3#8
  contrast := 0x81#8
  entireOn := 0xA5#8
  normal := 0xA6#8
  inverted := 0xA7#8

/-- The reference configuration (R5) with those opcodes. -/
def big : EngineConfig := ⟨256#16, 64#16, true, .pixel, 0x80#8, .scanRemapped, 32#6, opcodes⟩

/-- The small panel of program P3: 4 by 2. -/
def small : EngineConfig := { big with width := 4#16, height := 2#16 }

/-- The same, unchecked. -/
def unchecked : EngineConfig := { small with checked := false }

/-- A reset engine with a buffer and answers to come. -/
def engine (c : EngineConfig) (buf : Memory) (iface : List IfaceInput) : State :=
  { State.resetWith c with buf := buf, iface := iface }

/-- The state a request leads to in one step. -/
def after (s : State) (word : Nat) : Option State :=
  match step (s.withFetchWord 96 word) with
  | .next t => some t
  | _ => none

def responsesAfter (s : State) (word : Nat) : Option (List ResponseWord) := (after s word).map (·.responses)
def bufferAfter (s : State) (word : Nat) : Option Memory := (after s word).map (·.buf)
def faultAfter (s : State) (word : Nat) : Option (BitVec 2) := (after s word).map (·.fault)
def sentAfter (s : State) (word : Nat) : Option (List Transaction) := (after s word).map (transactionsOf ·.downstream)

/-- The answer ERR(e). -/
def err (e : BitVec 32) : IfaceInput := .answer (.err e)

/-! ### Well-formedness: each check refuses an ill-formed term -/

theorem test_wf_getPixel : (Instr.getPixel 65535 65535).wellFormed = true ∧ (Instr.getPixel 65536 0).wellFormed = false ∧
    (Instr.getPixel 0 65536).wellFormed = false := by decide
theorem test_wf_setPixel : (Instr.setPixel 65535 65535 0#8).wellFormed = true ∧
    (Instr.setPixel 65536 0 0#8).wellFormed = false ∧ (Instr.setPixel 0 65536 0#8).wellFormed = false := by decide
theorem test_wf_partialFill : (Instr.partialFill 65535 65535 65535 65535 0#8).wellFormed = true ∧
    (Instr.partialFill 65536 0 0 0 0#8).wellFormed = false ∧ (Instr.partialFill 0 65536 0 0 0#8).wellFormed = false ∧
    (Instr.partialFill 0 0 65536 0 0#8).wellFormed = false ∧ (Instr.partialFill 0 0 0 65536 0#8).wellFormed = false := by
  decide
theorem test_wf_partialFlush : (Instr.partialFlush 65535 65535 65535 65535).wellFormed = true ∧
    (Instr.partialFlush 65536 0 0 0).wellFormed = false ∧ (Instr.partialFlush 0 65536 0 0).wellFormed = false ∧
    (Instr.partialFlush 0 0 65536 0).wellFormed = false ∧ (Instr.partialFlush 0 0 0 65536).wellFormed = false := by decide

/-! ### Decoding: the words of 95_test_vectors.md, one for every constructor -/

theorem test_decode_queries : decodeTableWord 96 0x000000000000000000000001 = some .getWidth ∧
    decodeTableWord 96 0x000000000000000000000002 = some .getHeight := by decide
/-- 2.2, rows 6 and 5. -/
theorem test_decode_pixels : decodeTableWord 96 0x000000000000003F00FF0010 = some (.getPixel 255 63) ∧
    decodeTableWord 96 0x000000000000003F00FFA511 = some (.setPixel 255 63 0xA5#8) := by decide
/-- 2.3. -/
theorem test_decode_fills : decodeTableWord 96 0x000000000000000000003720 = some (.fill 0x37#8) ∧
    decodeTableWord 96 0x00000002000300010002AB21 = some (.partialFill 2 1 3 2 0xAB#8) := by decide
/-- 2.4 and 2.5. -/
theorem test_decode_flushes : decodeTableWord 96 0x000000000000000000000030 = some .flush ∧
    decodeTableWord 96 0x000000400100000000000031 = some (.partialFlush 0 0 256 64) ∧
    decodeTableWord 96 0x000000020004000200030031 = some (.partialFlush 3 2 4 2) := by decide
/-- 2.6. -/
theorem test_decode_controller : decodeTableWord 96 0x000000000000000000000040 = some .initDisplay ∧
    decodeTableWord 96 0x000000000000000000000041 = some .displayOn ∧
    decodeTableWord 96 0x000000000000000000000042 = some .displayOff ∧
    decodeTableWord 96 0x000000000000000000007F43 = some (.setContrast 0x7F#8) ∧
    decodeTableWord 96 0x000000000000000000000144 = some (.setInverted true) ∧
    decodeTableWord 96 0x000000000000000000000044 = some (.setInverted false) := by decide
/-- 2.7: every illegal word of the table. -/
theorem test_decode_illegal : ∀ w ∈ [0x000000000000000000000000, 0x000000000000000000000003, 0x0000000000000000000000FF,
    0x000000000000000000010030, 0x000000000000000000000244, 0x000000000000000000000110, 0x000000000000000000053720,
    0x000100020004000200030031, 0x000000000000000001000110], decodeTableWord 96 w = none := by decide
/-- R63 to R65: no two rows of the opcode map match one word. -/
theorem test_opcodes_distinct : (opcodeMap.map (·.opcode)).Nodup := by decide
/-- R61: the word of an instruction, written out. -/
theorem test_encode : encode (.partialFill 2 1 3 2 0xAB#8) = 0x00000002000300010002AB21#96 ∧
    encode (.setInverted true) = 0x000000000000000000000144#96 := by decide
/-- R70: the lines of 2.2, 2.3 and 2.5, and three assembly errors. -/
theorem test_assemble : assembleLine "SET_PIXEL 255, 63, 0xA5".toList = some 0x000000000000003F00FFA511#96 ∧
    assembleLine "PARTIAL_FLUSH 3, 2, 4, 2".toList = some 0x000000020004000200030031#96 ∧
    assembleLine "SET_INVERTED true".toList = some 0x000000000000000000000144#96 ∧
    assembleLine "GET_PIXEL 65536, 0".toList = none ∧ assembleLine "FILL 256".toList = none ∧
    assembleLine "SET_INVERTED 2".toList = none := by decide

/-! ### One step of each instruction -/

/-- V-C1 and P3 line 5. -/
theorem test_getWidth : responsesAfter (engine big [] []) 0x01 = some [0x0000000000010000#64] ∧
    responsesAfter (engine small [] []) 0x01 = some [0x0000000000000400#64] := by decide
/-- V-C2. -/
theorem test_getHeight : responsesAfter (engine big [] []) 0x02 = some [0x0000000000004000#64] := by decide
/-- 2.2, row 4; R84's example. -/
theorem test_getPixel : responsesAfter (engine big [(1, 0x05#8)] []) 0x00030010 = some [0x0000000000005000#64] ∧
    responsesAfter (engine big [(0, 0xF1#8)] []) 0x00010010 = some [0x0000000000001000#64] := by decide
/-- 2.2: GET_PIXEL 256, 0 and 0, 64 with CHECKED = 1. -/
theorem test_getPixel_outside :
    responsesAfter (engine big [] []) 0x01000010 = some [0x0000000000000003#64] ∧
    faultAfter (engine big [] []) 0x01000010 = some 1#2 ∧
    faultAfter (engine big [] []) 0x004000000010 = some 1#2 := by decide
/-- 2.2, rows 2, 3 and 5; S2. -/
theorem test_setPixel : bufferAfter (engine big [(1, 0x90#8)] []) 0x00035F11 = some [(1, 0x95#8)] ∧
    bufferAfter (engine big [(1, 0x95#8)] []) 0x00020011 = some [(1, 0x05#8)] ∧
    bufferAfter (engine big [] []) 0x003F00FFA511 = some [(8191, 0x0A#8)] ∧
    bufferAfter (engine big [(0, 0xF0#8)] []) 0x00011011 = some [(0, 0xF1#8)] := by decide
/-- P5 line 2 (on the small panel): no response, FAULT = 2, nothing written. -/
theorem test_setPixel_unchecked : (after (engine unchecked [(2, 0x80#8)] []) 0x0004FF11).map
    (fun t => (t.responses, t.fault, t.buf, t.busy)) = some ([], 2#2, [(2, 0x80#8)], true) := by decide
/-- 2.3: FILL 0x37, and FILL 0x0F from a written buffer. -/
theorem test_fill : bufferAfter (engine small [(3, 0x0F#8)] []) 0x3720 =
      some [(0, 0x33#8), (1, 0x33#8), (2, 0x33#8), (3, 0x33#8)] ∧
    bufferAfter (engine small [(3, 0x0F#8)] []) 0x0F20 = some [] := by decide
/-- 2.3: PARTIAL_FILL 1, 0, 2, 1, 0xC0, and PARTIAL_FILL 300, 300, 0, 0, 0x11. -/
theorem test_partialFill : bufferAfter (engine big [] []) 0x0001000200000001C021 = some [(0, 0x0C#8), (1, 0xC0#8)] ∧
    responsesAfter (engine big [] []) 0x012C012C1121 = some [0#64] := by decide
/-- 2.3: PARTIAL_FILL 254, 63, 3, 1, 0xFF leaves the two pixels before the one outside written. -/
theorem test_partialFill_outside : (after (engine big [] []) 0x00010003003F00FEFF21).map
    (fun t => (t.responses, t.fault, t.buf)) = some ([0x0000000000000003#64], 1#2, [(8191, 0xFF#8)]) := by decide
/-- P3 line 3. -/
theorem test_flush : sentAfter (engine small [(3, 0x0F#8)] (okAnswers 3)) 0x30 =
    some [.cmd 0x00#8 [0x10#8], .cmd 0xB0#8 [0x00#8], .data [0x00#8, 0x00#8, 0x00#8, 0x0F#8]] := by decide
/-- 2.4: ERR(7) to the first transaction. -/
theorem test_flush_error : (after (engine small [] [err 7#32]) 0x30).map (fun t => (transactionsOf t.downstream, t.responses)) =
    some ([.cmd 0x00#8 [0x10#8]], [0x0000000700000001#64]) := by decide
/-- P3 line 4. -/
theorem test_partialFlush : (after (engine small [(3, 0x0F#8)] [.answer .ok, err 0x2A#32]) 0x00010001000100030031).map
    (fun t => (transactionsOf t.downstream, t.responses)) =
    some ([.cmd 0x02#8 [0x10#8], .cmd 0xB0#8 [0x01#8]], [0x0000002A00000001#64]) := by decide
/-- P1 line 5: the window is widened to the left. -/
theorem test_partialFlush_widened : sentAfter (engine big [(0, 0xF1#8)] (okAnswers 3)) 0x00010001000000010031 =
    some [.cmd 0x00#8 [0x10#8], .cmd 0xB0#8 [0x00#8], .data [0xF1#8]] := by decide
/-- P3 line 1. -/
theorem test_initDisplay : sentAfter (engine small [] (okAnswers 16)) 0x40 =
    some [.cmd 0xAE#8 [], .cmd 0xB0#8 [0x00#8], .cmd 0x00#8 [0x10#8], .cmd 0x40#8 [], .cmd 0xA1#8 [], .cmd 0xA0#8 [],
      .cmd 0xA8#8 [0x01#8], .cmd 0xC8#8 [], .cmd 0xD3#8 [0x00#8], .cmd 0x81#8 [0x80#8], .cmd 0xA5#8 [], .cmd 0xA6#8 [],
      .cmd 0xAF#8 [], .cmd 0x00#8 [0x10#8], .cmd 0xB0#8 [0x00#8], .data [0x00#8, 0x00#8, 0x00#8, 0x00#8]] := by decide
/-- P4 line 1: the 5th command fails. -/
theorem test_initDisplay_error : (after (engine small [] (okAnswers 4 ++ [err 0x2A#32])) 0x40).map
    (fun t => ((transactionsOf t.downstream).length, t.responses, t.busy)) = some (5, [0x0000002A00000001#64], false) := by
  decide
/-- V-C3 and V-C9. -/
theorem test_displayOn : sentAfter (engine big [] [.answer .ok]) 0x41 = some [.cmd 0xAF#8 []] ∧
    responsesAfter (engine big [] [err 3#32]) 0x41 = some [0x0000000300000001#64] := by decide
/-- V-C4. -/
theorem test_displayOff : sentAfter (engine big [] [.answer .ok]) 0x42 = some [.cmd 0xAE#8 []] := by decide
/-- V-C5. -/
theorem test_setContrast : sentAfter (engine big [] [.answer .ok]) 0x7F43 = some [.cmd 0x81#8 [0x7F#8]] := by decide
/-- V-C6 and V-C7. -/
theorem test_setInverted : sentAfter (engine big [] [.answer .ok]) 0x0144 = some [.cmd 0xA7#8 []] ∧
    sentAfter (engine big [] [.answer .ok]) 0x0044 = some [.cmd 0xA6#8 []] := by decide
/-- 2.7: the last row, an illegal word that is also out of bounds. -/
theorem test_illegal : (after (engine big [] []) 0x01000110).map (fun t => (t.responses, t.fault)) =
    some ([0x0000000000000002#64], 0#2) := by decide

/-! ### The window encoder: rows of 2.5 -/

theorem test_window_rows :
    windowEncode big 3 2 4 2 = some (⟨2, 2, 5, 2⟩, [⟨2, 2, 257, 3⟩, ⟨2, 3, 385, 3⟩]) ∧
    windowEncode big 255 63 10 10 = some (⟨254, 63, 2, 1⟩, [⟨254, 63, 8191, 1⟩]) ∧
    windowEncode big 4 0 0 2 = some (⟨4, 0, 0, 2⟩, [⟨4, 0, 2, 0⟩, ⟨4, 1, 130, 0⟩]) ∧
    windowEncode big 5 0 0 1 = some (⟨4, 0, 1, 1⟩, [⟨4, 0, 2, 1⟩]) ∧
    windowEncode big 2 5 0 0 = some (⟨2, 5, 0, 0⟩, []) ∧
    windowEncode { big with colAddrMode := .pair } 3 2 4 2 = some (⟨2, 2, 5, 2⟩, [⟨1, 2, 257, 3⟩, ⟨1, 3, 385, 3⟩]) := by decide
theorem test_window_full_width :
    windowEncode big 0 10 300 5 = some (⟨0, 10, 256, 5⟩, [⟨0, 10, 1280, 640⟩]) ∧
    windowEncode big 1 0 255 1 = some (⟨0, 0, 256, 1⟩, [⟨0, 0, 0, 128⟩]) ∧
    windowEncode big 0 0 256 0 = some (⟨0, 0, 256, 0⟩, [⟨0, 0, 0, 0⟩]) ∧
    windowEncode big 256 0 1 1 = none ∧ windowEncode big 0 64 1 1 = none := by decide
/-- 2.5: the column lowering at the upper end. -/
theorem test_lower_column : lower opcodes (.setCol 254#8) = .cmd 0x0E#8 [0x1F#8] := by decide

/-! ### Witnesses: hypotheses of the obligations, met -/

/-- Ready, with a request for `word` presented. -/
def ready (word : Nat) : State := (engine small [] []).withFetchWord 96 word

/-- DISPLAY_ON in progress, its command awaiting an answer. -/
def waiting (iface : List IfaceInput) (host : List HostInput) : State :=
  { engine small [] iface with
    op := some ⟨.displayOn, 0, true⟩, downstream := [.sent (.cmd 0xAF#8 [])], host := host }

/-- FAULTED after a checked violation. -/
def faulted (host : List HostInput) : State :=
  { engine small [] [] with fault := 1#2, responses := [0x0000000000000003#64], host := host }

/-- The invariant holds in a state with an operation in progress. -/
theorem waiting_invariant (iface : List IfaceInput) (host : List HostInput) : Invariant (waiting iface host) where
  config := (by decide : legalConfig small = true)
  bufWf := rfl
  bufBound := by simp [waiting, engine]
  fault := by simp [waiting, engine, State.resetWith]
  faulted := fun h => absurd rfl h
  op := by
    intro o h
    simp only [waiting, Option.some.injEq] at h
    subst h
    exact ⟨[.cmd 0xAF#8 []], rfl, by decide⟩
  responses := by simp [waiting, engine, State.resetWith]
  port := rfl
  unanswered := by simp [waiting]

theorem witness_DecodeOfEncode : (Instr.partialFill 65535 65535 65535 65535 0xFF#8).wellFormed = true ∧
    (Instr.setPixel 0 65535 0#8).wellFormed = true := by decide
theorem witness_EncodeOfDecode : ∃ i, decode 0x0000FFFFFFFFFFFFFFFFFF21#96 = .ok i := ⟨_, rfl⟩
theorem witness_WordIsTheOperation : decode 0x000000000000000000000144#96 = .ok (.setInverted true) ∧
    0x000000000000000000000144#96 &&& 0xFFFFFFFFFFFFFFFFFFFFFEFF#96 = (0x44#8).setWidth 96 ∧
    ¬ 0x000000000000000000000244#96 &&& 0xFFFFFFFFFFFFFFFFFFFFFEFF#96 = (0x44#8).setWidth 96 := ⟨rfl, by decide, by decide⟩
theorem witness_StepRuns : (ready 0x41).busy = false ∧ (ready 0x41).host = [.request 0x41#96] ∧
    decode 0x41#96 = .ok .displayOn := ⟨rfl, rfl, rfl⟩
theorem witness_IllegalWord : (ready 0x03).busy = false ∧ (ready 0x03).host = [.request 0x03#96] ∧
    ∃ e, decode 0x03#96 = .error e := ⟨rfl, rfl, _, rfl⟩
theorem witness_Faulted : (faulted [.request 0x01#96]).fault ≠ 0#2 ∧
    (∀ c rest, (faulted [.request 0x01#96]).host ≠ .reset c :: rest) ∧
    (∃ t, step (faulted [.request 0x01#96]) = .next t) ∧
    (faulted [.reset small]).fault ≠ 0#2 ∧ ∃ t, step (faulted [.reset small]) = .next t :=
  ⟨by decide, by simp [faulted], ⟨_, rfl⟩, by decide, _, rfl⟩
theorem witness_Reset : (waiting [.silent] [.reset small]).host = [.reset small] ∧ legalConfig small = true := ⟨rfl, by decide⟩
/-- R190: each condition at its boundary, inside and outside. -/
theorem witness_IllegalConfiguration : legalConfig { big with width := 2#16 } = true ∧
    legalConfig { big with width := 0#16 } = false ∧ legalConfig { big with width := 3#16 } = false ∧
    legalConfig { big with width := 258#16 } = false ∧
    legalConfig { big with width := 512#16, colAddrMode := .pair } = true ∧
    legalConfig { big with width := 514#16, colAddrMode := .pair } = false ∧
    legalConfig { big with height := 1#16 } = true ∧ legalConfig { big with height := 0#16 } = false ∧
    legalConfig { big with height := 256#16 } = true ∧ legalConfig { big with height := 257#16 } = false ∧
    legalConfig { big with opc := { opcodes with colLow := 0x01#8 } } = false ∧
    legalConfig { big with opc := { opcodes with colHigh := 0x18#8 } } = false ∧
    legalConfig { big with teBits := 1#6 } = true ∧ legalConfig { big with teBits := 0#6 } = false ∧
    legalConfig { big with teBits := 33#6 } = false := by decide
theorem witness_RequestWaits : (waiting [] [.request 0x01#96]).busy = true ∧
    (∃ t, step (waiting [] [.request 0x01#96]) = .next t) ∧ (ready 0x01).busy = false ∧ ∃ t, step (ready 0x01) = .next t :=
  ⟨rfl, ⟨_, rfl⟩, rfl, _, rfl⟩
theorem witness_Stalled : Invariant (waiting [] []) ∧ (waiting [] []).awaiting = true ∧ (waiting [] []).iface = [] :=
  ⟨waiting_invariant _ _, rfl, rfl⟩
/-- For GetPixelAnswersTheStoredNibble and SetPixelReplacesOneNibble. The last pixel inside, and the two first coordinates outside. -/
theorem witness_PixelAccess : legalConfig (engine small [(3, 0x0F#8)] []).config = true ∧
    Memory.wf (engine small [(3, 0x0F#8)] []).buf = true ∧ inBounds small 3 1 = true ∧ inBounds small 4 0 = false ∧
    inBounds small 0 2 = false := by decide
/-- For CheckedOutOfBoundsIsAContractViolation and UncheckedOutOfBoundsSendsNoResponse. -/
theorem witness_Checked : small.checked = true ∧ unchecked.checked = false ∧ ¬ (4 < small.width.toNat ∧ 0 < small.height.toNat) := by
  decide
/-- For PixelsHaveTheirOwnNibbles: two pixels in one byte. -/
theorem witness_OwnNibbles : legalConfig small = true ∧ inBounds small 2 1 = true ∧ inBounds small 3 1 = true ∧
    byteIndex (pixelIndex small 2 1) = byteIndex (pixelIndex small 3 1) := by decide
theorem witness_SetKeepsOthers : ∃ t, exec (.setPixel 3 1 0xFF#8) (engine small [] []) = .next t ∧
    inBounds small 2 1 = true ∧ ((2, 1) : Nat × Nat) ≠ (3, 1) := ⟨_, rfl, by decide, by decide⟩
theorem witness_GetAfterSet : ∃ t, exec (.setPixel 3 1 0xFF#8) (engine small [] []) = .next t ∧
    t.config = t.config ∧ pixelAt t 3 1 = pixelAt t 3 1 := ⟨_, rfl, rfl, rfl⟩
theorem witness_GetAfterFill : ∃ t, exec (.fill 0x37#8) (engine small [] []) = .next t := ⟨_, rfl⟩
/-- For PartialFillWritesExactlyTheRectangle, PartialFillStopsAtTheFirstPixelOutside and EmptyPartialFillCompletes. The whole engine, and one pixel too wide or too high. -/
theorem witness_PartialFill : (0 + 4 ≤ small.width.toNat ∧ 0 + 2 ≤ small.height.toNat) ∧
    ¬ (1 + 4 ≤ small.width.toNat ∧ 0 + 2 ≤ small.height.toNat) ∧ ¬ (0 + 4 ≤ small.width.toNat ∧ 1 + 2 ≤ small.height.toNat) := by
  decide
/-- For FillAndSetPixelAreIdempotent. -/
theorem witness_Idempotent : (∃ t u, exec (.setPixel 3 1 0xFF#8) (engine small [] []) = .next t ∧
      exec (.setPixel 3 1 0xFF#8) t = .next u) ∧
    ∃ t u, exec (.fill 0x37#8) (engine small [] []) = .next t ∧ exec (.fill 0x37#8) t = .next u :=
  ⟨⟨_, _, rfl, rfl⟩, _, _, rfl, rfl⟩
/-- For OutsideRectangleFlushesNothing and WindowIsAlignedThenClamped. The last x and y inside, and each first one outside. -/
theorem witness_Windows : (255 < big.width.toNat ∧ 63 < big.height.toNat) ∧ dirtyWindow big 256 63 1 1 = none ∧
    dirtyWindow big 255 64 1 1 = none ∧ dirtyWindow big 254 63 2 1 = some ⟨254, 63, 2, 1⟩ := by decide
/-- For JobsAreThoseOfTheTwoPaths, JobsStayInsideTheBufferAndTheirRow, WindowAddsAtMostOnePixelOnEachSide, ColumnAndRowArgumentsFitAByte,
PartialFlushRunsTheJobsOfItsWindow and FlushIsThePartialFlushOfEverything. A window on the row path, one of full width, and one of full width after alignment, with their jobs. -/
theorem witness_Jobs : windowEncode small 1 0 2 2 = some (⟨0, 0, 3, 2⟩, [⟨0, 0, 0, 2⟩, ⟨0, 1, 2, 2⟩]) ∧
    windowEncode small 0 0 4 2 = some (⟨0, 0, 4, 2⟩, [⟨0, 0, 0, 4⟩]) ∧
    windowEncode small 1 0 3 1 = some (⟨0, 0, 4, 1⟩, [⟨0, 0, 0, 2⟩]) ∧ legalConfig small = true := by decide
/-- For PartialFlushTransactionCounts: NONE, the full-width path, the row path. -/
theorem witness_Counts : (engine small [] (okAnswers 6)).iface = okAnswers (3 * small.height.toNat) ++ [] ∧
    dirtyWindow small 4 0 1 1 = none ∧ dirtyWindow small 0 0 4 2 = some ⟨0, 0, 4, 2⟩ ∧
    dirtyWindow small 0 0 3 2 = some ⟨0, 0, 3, 2⟩ := by decide
/-- For every statement in RunsSequence (FLUSH, PARTIAL_FLUSH, INIT_DISPLAY, the single commands). The Interface answers everything, or fails at the last transaction of FLUSH with the largest code of TE_BITS = 1. -/
theorem witness_Sequences : (engine small [] (okAnswers 3)).iface = okAnswers 3 ++ [] ∧
    (engine { small with teBits := 1#6 } [] (okAnswers 2 ++ [err 1#32])).iface = okAnswers 2 ++ .answer (.err 1#32) :: [] ∧
    (1#32).toNat < 2 ^ (1#6).toNat := by decide
/-- For ControllerOperationsAreIndependentOfTheBuffer. -/
theorem witness_Controller : ∃ t, exec .initDisplay (engine small [] (okAnswers 16)) = .next t := ⟨_, rfl⟩
/-- For OnlyPixelAccessIsStrictAboutBounds. -/
theorem witness_Strict : (∃ t, exec (.partialFlush 4 0 1 1) (engine small [] []) = .next t) ∧ inBounds small 4 0 = false :=
  ⟨⟨_, rfl⟩, by decide⟩
/-- For StepKeepsTheInvariant and NoAccessLeavesTheBuffer. -/
theorem witness_Invariant : Invariant (waiting [.answer .ok] []) ∧ ∃ t, step (waiting [.answer .ok] []) = .next t :=
  ⟨waiting_invariant _ _, _, rfl⟩
theorem witness_WritesBuffer : ∃ t, step (ready 0x3720) = .next t ∧ t.buf ≠ (ready 0x3720).buf := ⟨_, rfl, by decide⟩
theorem witness_Configuration : ∃ t, step (faulted [.reset big]) = .next t ∧ t.config ≠ (faulted [.reset big]).config :=
  ⟨_, rfl, by decide⟩
/-- For FaultIsSetOnlyByPixelAccess: GET_PIXEL 4, 0, SET_PIXEL 0, 2 and PARTIAL_FILL 1, 0, 4, 1, and a reset. -/
theorem witness_FaultSet : (∃ t, step (ready 0x0000_0000_0000_0004_0010) = .next t ∧ t.fault ≠ 0#2) ∧
    (∃ t, step (ready 0x0000_0002_0000_FF11) = .next t ∧ t.fault ≠ 0#2) ∧
    (∃ t, step (ready 0x0001_0004_0000_0001_FF21) = .next t ∧ t.fault ≠ 0#2) ∧
    ∃ t, step (faulted [.reset small]) = .next t ∧ t.fault ≠ (faulted [.reset small]).fault :=
  ⟨⟨_, rfl, by decide⟩, ⟨_, rfl, by decide⟩, ⟨_, rfl, by decide⟩, _, rfl, by decide⟩
/-- The three ends of an operation: a response, still in progress, and no response at all. -/
theorem witness_Responses : (∃ t, exec .getWidth (engine small [] []) = .next t ∧ t.responses ≠ []) ∧
    (∃ t, exec .flush (engine small [] [.answer .ok]) = .next t ∧ t.op ≠ none) ∧
    ∃ t, exec (.getPixel 4 0) (engine unchecked [] []) = .next t ∧ t.responses = [] ∧ t.fault = 2#2 :=
  ⟨⟨_, rfl, by decide⟩, ⟨_, rfl, by decide⟩, _, rfl, rfl, rfl⟩
/-- For the same: a later step that sends the response, and one that keeps the operation in progress. -/
theorem witness_LaterResponses : (∃ t, step (waiting [.answer .ok] []) = .next t ∧ t.responses ≠ []) ∧
    ∃ t, step (waiting [.silent] []) = .next t ∧ t.op = some ⟨.displayOn, 0, true⟩ := ⟨⟨_, rfl, by decide⟩, _, rfl, rfl⟩
/-- For EveryOperationKeepsItsFrame: one operation of each class, and a PARTIAL_FLUSH that emits nothing. -/
theorem witness_Frame : (∃ t, exec (.fill 0x37#8) (engine small [] []) = .next t) ∧
    (∃ t, exec .displayOff (engine small [] []) = .next t) ∧
    ∃ t, exec (.partialFlush 4 0 1 1) (engine small [] []) = .next t ∧ t.downstream = [] :=
  ⟨⟨_, rfl⟩, ⟨_, rfl⟩, _, rfl, rfl⟩
/-- The first and the last transaction of FLUSH. -/
theorem witness_Resumes : (engine small [] []).busy = false ∧
    ∃ ts, sequenceOf .flush (engine small [] []) = some ts ∧ 0 < ts.length ∧ 2 < ts.length := ⟨rfl, _, rfl, by decide, by decide⟩
/-- For LateAnswersAreIgnored: a waiting engine; the first and the last transaction of FLUSH, just accepted and in progress. -/
theorem witness_Late : (Invariant (waiting [.late .ok] []) ∧ (waiting [.late .ok] []).awaiting = true ∧
      (waiting [.late .ok] []).iface = [.late .ok]) ∧
    (∃ ts, sequenceOf .flush (engine small [] []) = some ts ∧ 0 < ts.length ∧ 2 < ts.length) ∧
    ∃ ts, sequenceOf .flush { engine small [] [] with op := some ⟨.flush, 1, false⟩ } = some ts ∧ 1 + 0 < ts.length ∧
      1 + 1 < ts.length :=
  ⟨⟨waiting_invariant _ _, rfl, rfl⟩, ⟨_, rfl, by decide, by decide⟩, _, rfl, by decide, by decide⟩
/-- For AnAbandonedOperationLeavesNoSuccessfulEnd: a reset that abandons an operation, one that abandons none, and a successful
end with an answered transaction. -/
theorem witness_Abandoned : (∃ t, step (waiting [] [.reset small]) = .next t ∧ t.abandoned = true) ∧
    (∃ t, step (faulted [.reset small]) = .next t ∧ t.abandoned = false) ∧
    ∃ t, step (waiting [.answer .ok] []) = .next t ∧ SuccessfulEnd t ∧
      t.downstream = [] ++ .sent (.cmd 0xAF#8 []) :: [.answered .ok] :=
  ⟨⟨_, rfl, rfl⟩, ⟨_, rfl, rfl⟩, _, rfl, ⟨rfl, rfl, rfl, rfl, rfl, rfl, rfl⟩, rfl⟩
/-- For AViolationLeavesNoSuccessfulEnd: a FAULTED engine, with and without a reset, and a reset of one that is not FAULTED. -/
theorem witness_Violated : (∃ t, step (faulted []) = .next t ∧ t.fault ≠ 0#2) ∧
    (∃ t, step (faulted [.reset small]) = .next t ∧ t.fault = 0#2 ∧ t.busy = false ∧ t.violated = true) ∧
    ∃ t, step (waiting [] [.reset small]) = .next t ∧ t.violated = false :=
  ⟨⟨_, rfl, by decide⟩, ⟨_, rfl, rfl, rfl, rfl⟩, _, rfl, rfl⟩
theorem witness_TransportError : Invariant (waiting [err 0x2A#32] []) ∧ (waiting [err 0x2A#32] []).awaiting = true ∧
    (0x2A#32).toNat < 2 ^ small.teBits.toNat := ⟨waiting_invariant _ _, rfl, by decide⟩
theorem witness_Idle : (engine small [] []).busy = false ∧ (engine small [] []).host = [] := ⟨rfl, rfl⟩

end Sys2Proof.Tests
end

namespace Sys2Proof.Machine

/-- Taking IllegalOp leaves the configuration (R171). -/
@[simp] theorem raiseIllegalOp_config (s : State) : (raiseIllegalOp s).config = s.config := rfl

/-- A reset is the only way for a step to end that gives the configuration registers a value (R23, R190). -/
theorem Stepped.config_eq_or_reset {s t : State} (h : Stepped s t) :
    t.config = s.config ∨ ∃ c rest, s.host = .reset c :: rest ∧ t.config = c := by
  cases h with
  | reset c rest hhost _ => exact .inr ⟨c, rest, hhost, applyReset_config _ c⟩
  | illegal => exact .inl (by simp)
  | executed word rest i t _ _ _ hexec =>
    obtain ⟨hconfig, -⟩ := executed_frame (exec_executed hexec)
    exact .inl (hconfig.trans (dropHost_config s))
  | idle => exact .inl rfl
  | resumed o ts =>
    obtain ⟨hconfig, -⟩ := resumed_frame o ts s
    exact .inl hconfig

/-- Settles O50: of the ways a step can end, only a reset does not keep the configuration. -/
theorem configurationChangesOnlyAtReset : Obligations.ConfigurationChangesOnlyAtReset := by
  intro s t h
  exact (step_stepped h).config_eq_or_reset

end Sys2Proof.Machine

/-! ## What every operation and every step keep (10_state.md)

First what an operation leaves in each field of the state, then the invariant, the frame, the responses, and the operations
that wait. -/

namespace Sys2Proof.Machine

/-! ### Taking a request -/

/-- A ready engine decodes the request presented to it and executes it (R28, R69). -/
theorem step_of_request {s : State} {word : RequestWord} {rest : List HostInput} {i : Instr} (hbusy : s.busy = false)
    (hhost : s.host = .request word :: rest) (hword : decode word = .ok i) : step s = exec i { s with host := rest } := by
  have hdrop : s.dropHost = { s with host := rest } := by simp [State.dropHost, hhost]
  simp [step, machineMove, hhost, hbusy, acceptRequest, hword, hdrop]

/-- Settles O9: the first clause is the rule for a ready engine, and `withFetchWord` makes any state one. -/
theorem stepRunsTheDecodedRequest : Obligations.StepRunsTheDecodedRequest := by
  refine ⟨fun s word rest i hbusy hhost hword => step_of_request hbusy hhost hword, fun s w i hword => ?_⟩
  have hbits : BitVec.ofNat 96 (w % 2 ^ 96) = BitVec.ofNat 96 w := by
    apply BitVec.eq_of_toNat_eq
    simp
  have hhost : (s.withFetchWord 96 w).host = .request (BitVec.ofNat 96 w) :: s.host := by
    rw [withFetchWord_host, hbits]
  exact step_of_request rfl hhost hword

/-! ### The reset state -/

/-- The reference configuration is one that reset accepts, whatever the bytes the spec leaves open (R190). -/
theorem legalConfig_reference : legalConfig Config.reference = true := by
  have hlow : (Config.opcColLowUpper ++ 0#4).extractLsb' 0 4 = 0#4 := extract_append_low _ _ (by decide)
  have hhigh : (Config.opcColHighUpper ++ 0#4).extractLsb' 0 4 = 0#4 := extract_append_low _ _ (by decide)
  exact (legalConfig_iff _).2
    ⟨by decide, by decide, by decide, by decide, by decide, hlow, hhigh, by decide, by decide⟩

/-- Settles O14: every value is the one `State.reset` was given, and its configuration is legal. -/
theorem resetStateHasTheReferenceConfiguration : Obligations.ResetStateHasTheReferenceConfiguration :=
  ⟨fun _ => rfl, rfl, rfl, rfl, rfl, rfl, rfl, rfl, rfl, rfl, rfl, rfl, by decide, legalConfig_reference,
    rfl, rfl, rfl, rfl, rfl, rfl, rfl⟩

/-- The reset state of a legal configuration meets the invariant: nothing is in progress and nothing has been sent. -/
theorem resetWith_invariant {c : EngineConfig} (hc : legalConfig c = true) : Invariant (State.resetWith c) where
  config := hc
  bufWf := rfl
  bufBound := by simp
  fault := by simp
  faulted := fun _ => rfl
  op := by simp
  responses := by simp
  port := rfl
  unanswered := by simp

/-- Settles O46: legality of the configuration is all that a reset state needs. -/
theorem resetMeetsTheInvariant : Obligations.ResetMeetsTheInvariant :=
  ⟨fun _ hc => resetWith_invariant hc, resetWith_invariant legalConfig_reference⟩

/-! ### What an operation leaves in each field -/

/-- Running a sequence does not read the operation field, and sets it wherever it ends. -/
theorem runTransactions_withOp (i : Instr) (ts : List Transaction) (k : Nat) (s : State) (o : Option Operation) :
    runTransactions i ts k { s with op := o } = runTransactions i ts k s := by
  cases ts with
  | nil => rfl
  | cons t ts => exact runTransactions_op i t ts k s o

/-- Running a sequence only adds port events. -/
theorem runTransactions_downstream (i : Instr) (ts : List Transaction) (k : Nat) (s : State) :
    ∃ events, (runTransactions i ts k s).downstream = s.downstream ++ events := by
  obtain ⟨_, _, _, -, ⟨-, h⟩ | ⟨-, h⟩ | ⟨_, _, -, h⟩ | ⟨_, _, _, -, h⟩⟩ := runTransactions_cases i ts k s <;>
    simp [h]

/-- Only the operations of R26 change the buffer. -/
theorem Executed.buf_eq {i : Instr} {s t : State} (h : Executed i s t) (hw : writesBuffer i = false) : t.buf = s.buf := by
  cases h with
  | answered value m _ hm => exact hm.resolve_left (by simp [hw])
  | outOfBounds m _ _ hm =>
    rw [raiseOutOfBounds_buf]
    exact hm.resolve_left (by simp [hw])
  | ran ts =>
    obtain ⟨-, hbuf, -⟩ := runTransactions_frame i ts 0 s
    exact hbuf

/-- FAULT stays, or an operation that checks bounds sets it to the value CHECKED selects (R170, R172, R173). -/
theorem Executed.fault_cases {i : Instr} {s t : State} (h : Executed i s t) :
    t.fault = s.fault ∨ (checksBounds i = true ∧ t.fault = if s.config.checked then 1#2 else 2#2) := by
  cases h with
  | answered => exact .inl rfl
  | outOfBounds m _ hcheck => exact .inr ⟨hcheck, raiseOutOfBounds_fault _⟩
  | ran ts =>
    obtain ⟨-, -, hfault, -⟩ := runTransactions_frame i ts 0 s
    exact .inl hfault

/-- The operations that write the buffer, written out (R26). -/
theorem writesBuffer_iff (i : Instr) : writesBuffer i = true ↔
    (∃ x y v, i = .setPixel x y v) ∨ (∃ v, i = .fill v) ∨ (∃ x y w h v, i = .partialFill x y w h v) := by
  cases i <;> simp [writesBuffer]

/-- An operation that does not use the port has no transaction to run (R49, R150, R151). -/
theorem sequenceOf_of_portless {i : Instr} (hport : usesPort i = false) (s : State) : sequenceOf i s = some [] := by
  cases i <;> simp only [usesPort, Bool.true_eq_false] at hport <;> rfl

/-- An operation with a transaction to run is one that uses the port. -/
theorem usesPort_of_sequenceOf {i : Instr} {s : State} {ts : List Transaction} (h : sequenceOf i s = some ts)
    (hts : ts ≠ []) : usesPort i = true := by
  by_contra hport
  have hnil : sequenceOf i s = some [] := sequenceOf_of_portless (by simpa using hport) s
  exact hts (Option.some.inj (h.symm.trans hnil))

/-! ### The buffer -/

/-- Settles O49: of the ways a step can end, a reset zeroes the buffer and an operation that writes it was executed. -/
theorem onlyPixelAndFillOperationsWriteTheBuffer : Obligations.OnlyPixelAndFillOperationsWriteTheBuffer := by
  intro s t h hne
  cases step_stepped h with
  | reset c rest hhost => exact .inl ⟨c, rest, hhost, applyReset_buf _ c⟩
  | illegal => exact absurd rfl hne
  | executed word rest i t hhost hbusy hword hexec =>
    have hwrites : writesBuffer i = true := by
      by_contra hw
      exact hne ((exec_executed hexec).buf_eq (by simpa using hw))
    exact .inr ⟨hbusy, word, rest, i, hhost, hword, (writesBuffer_iff i).1 hwrites⟩
  | idle => exact absurd rfl hne
  | resumed o ts =>
    obtain ⟨-, hbuf, -⟩ := resumed_frame o ts s
    exact absurd hbuf hne

/-! ### FAULT -/

/-- `i` accesses a pixel outside an engine of configuration `c` (R83, R101, R170). -/
def AccessesOutside (c : EngineConfig) (i : Instr) : Prop :=
  (∃ x y, i = .getPixel x y ∧ inBounds c x y = false) ∨
  (∃ x y v, i = .setPixel x y v ∧ inBounds c x y = false) ∨
  (∃ x y w h v, i = .partialFill x y w h v ∧ 0 < w ∧ 0 < h ∧ ¬ (x + w ≤ c.width.toNat ∧ y + h ≤ c.height.toNat))

/-- A GET_PIXEL that changes FAULT names a pixel out of bounds (R84). -/
theorem execGetPixel_fault {x y : Nat} {s t : State} (h : execGetPixel x y s = .next t) (hf : t.fault ≠ s.fault) :
    inBounds s.config x y = false := by
  unfold execGetPixel at h
  split at h
  · simp only at h
    split at h
    · simp at h
    · simp only [Host.Outcome.next.injEq] at h
      subst h
      exact absurd rfl hf
  · next hin => simpa using hin

/-- A write of pixels that changes FAULT has gone out of bounds (R85, R101). -/
theorem finishVisit_fault {s t : State} {r : Visit}
    (hr : r = .noSuchByte ∨ ∃ m, r = .done { s with buf := m } ∨ r = .outOfBounds { s with buf := m })
    (h : finishVisit r = .next t) (hf : t.fault ≠ s.fault) : ∃ u, r = .outOfBounds u := by
  rcases hr with rfl | ⟨m, rfl | rfl⟩
  · simp [finishVisit] at h
  · simp only [finishVisit, Host.Outcome.next.injEq] at h
    subst h
    exact absurd rfl hf
  · exact ⟨_, rfl⟩

/-- An operation that changes FAULT accesses a pixel outside (R170). -/
theorem exec_fault_accessesOutside {i : Instr} {s t : State} (h : exec i s = .next t) (hf : t.fault ≠ s.fault) :
    AccessesOutside s.config i := by
  obtain ⟨hcheck, -⟩ := (exec_executed h).fault_cases.resolve_left hf
  cases i <;> simp only [checksBounds, Bool.false_eq_true] at hcheck
  case getPixel x y => exact .inl ⟨x, y, rfl, execGetPixel_fault h hf⟩
  case setPixel x y v =>
    obtain ⟨u, hu⟩ := finishVisit_fault (visitPixel_frame v x y s) h hf
    exact .inr (.inl ⟨x, y, v, rfl, visitPixel_outOfBounds hu⟩)
  case partialFill x y w n v =>
    obtain ⟨u, hu⟩ := finishVisit_fault (visitRows_frame v x w n y s) h hf
    obtain ⟨x', y', hx, hx', hy, hy', hout⟩ := visitRows_outOfBounds hu
    refine .inr (.inr ⟨x, y, w, n, v, rfl, by omega, by omega, fun hfits => ?_⟩)
    have hin : inBounds s.config x' y' = true := (inBounds_iff _ _ _).2 (by unfold widthOf heightOf; omega)
    simp [hin] at hout

/-- Settles O51: a step that changes FAULT is a reset, or executes an operation that accesses a pixel outside. -/
theorem faultIsSetOnlyByPixelAccess : Obligations.FaultIsSetOnlyByPixelAccess := by
  intro s t h hne
  cases step_stepped h with
  | reset c rest hhost => exact .inl ⟨applyReset_fault _ c, c, rest, hhost⟩
  | illegal => exact absurd rfl hne
  | executed word rest i t hhost hbusy hword hexec =>
    obtain ⟨-, hnone⟩ := (busy_eq_false_iff s).1 hbusy
    obtain ⟨-, hvalue⟩ := (exec_executed hexec).fault_cases.resolve_left hne
    exact .inr ⟨hbusy, hnone, hvalue, word, rest, i, hhost, hword,
      exec_fault_accessesOutside (s := s.dropHost) hexec hne⟩
  | idle => exact absurd rfl hne
  | resumed o ts =>
    obtain ⟨-, -, hfault, -⟩ := resumed_frame o ts s
    exact absurd hfault hne

/-! ### Responses -/

/-- Between `s` and `t`, operation `i` sent its one response and ended, or sent none and is in progress (R28). -/
def EndsWithOneResponse (i : Instr) (s t : State) : Prop :=
  ((∃ r, t.responses = s.responses ++ [r]) ∧ t.op = none) ∨
  (t.responses = s.responses ∧ ∃ o, t.op = some o ∧ o.request = i)

/-- Running a sequence ends it with one response, or leaves its operation in progress. -/
theorem runTransactions_endsWithOneResponse (i : Instr) (ts : List Transaction) (k : Nat) (s : State) :
    EndsWithOneResponse i s (runTransactions i ts k s) := by
  obtain ⟨_, _, _, -, ⟨-, h⟩ | ⟨-, h⟩ | ⟨_, _, -, h⟩ | ⟨_, _, _, -, h⟩⟩ := runTransactions_cases i ts k s <;> rw [h]
  · exact .inl ⟨⟨_, rfl⟩, rfl⟩
  · exact .inr ⟨rfl, _, rfl, rfl⟩
  · exact .inr ⟨rfl, _, rfl, rfl⟩
  · exact .inl ⟨⟨_, rfl⟩, rfl⟩

/-- Going on with an operation ends it with one response, or leaves it in progress. -/
theorem resumed_endsWithOneResponse {o : Operation} {s : State} (hop : s.op = some o) (ts : List Transaction) :
    EndsWithOneResponse o.request s (Resumed o ts s) := by
  unfold Resumed
  split
  · rcases awaitAnswer_cases (runTransactions o.request (ts.drop (o.step + 1)) (o.step + 1)) s with
      ⟨_, -, h⟩ | ⟨_, _, -, h⟩ | ⟨_, h⟩ <;> rw [h]
    · exact runTransactions_endsWithOneResponse _ _ _ _
    · exact .inl ⟨⟨_, rfl⟩, rfl⟩
    · exact .inr ⟨rfl, o, hop, rfl⟩
  · exact runTransactions_endsWithOneResponse _ _ _ _

/-- Executing an operation does the same, or ends in UNDEFINED_ACCESS without a response (R173). -/
theorem Executed.responses_cases {i : Instr} {s t : State} (h : Executed i s t) : EndsWithOneResponse i s t ∨
    (t.responses = s.responses ∧ t.op = none ∧ t.fault = 2#2 ∧ s.config.checked = false) := by
  cases h with
  | answered => exact .inl (.inl ⟨⟨_, rfl⟩, rfl⟩)
  | outOfBounds m =>
    cases hc : s.config.checked with
    | true => exact .inl (.inl ⟨⟨_, by rw [raiseOutOfBounds_responses, if_pos hc]⟩, raiseOutOfBounds_op _⟩)
    | false =>
      exact .inr ⟨by simp [raiseOutOfBounds_responses, hc], raiseOutOfBounds_op _,
        by simp [raiseOutOfBounds_fault, hc, faultUndefinedAccess], rfl⟩
  | ran ts => exact .inl (runTransactions_endsWithOneResponse i ts 0 s)

/-- No response, or one and no operation left. -/
theorem EndsWithOneResponse.none_or_one {i : Instr} {s t : State} (h : EndsWithOneResponse i s t) :
    t.responses = s.responses ∨ ((∃ r, t.responses = s.responses ++ [r]) ∧ t.op = none) :=
  h.elim .inr fun ⟨hkept, _⟩ => .inl hkept

/-- Executing an operation sends no response, or one and leaves no operation. -/
theorem Executed.none_or_one {i : Instr} {s t : State} (h : Executed i s t) :
    t.responses = s.responses ∨ ((∃ r, t.responses = s.responses ++ [r]) ∧ t.op = none) :=
  h.responses_cases.elim EndsWithOneResponse.none_or_one fun ⟨hkept, _⟩ => .inl hkept

/-- With an operation in progress, a step but a reset ends it with one response or leaves it in progress. -/
theorem Stepped.endsWithOneResponse {s t : State} {o : Operation} (h : Stepped s t) (hop : s.op = some o)
    (hreset : ∀ c rest, s.host ≠ .reset c :: rest) : EndsWithOneResponse o.request s t := by
  have notReady : s.busy ≠ false := by simp [State.busy, hop]
  cases h with
  | reset c rest hhost => exact absurd hhost (hreset c rest)
  | illegal _ _ _ hbusy => exact absurd hbusy notReady
  | executed _ _ _ _ _ hbusy => exact absurd hbusy notReady
  | idle => exact .inr ⟨rfl, o, hop, rfl⟩
  | resumed o' ts _ _ hop' =>
    obtain rfl : o = o' := Option.some.inj (hop.symm.trans hop')
    exact resumed_endsWithOneResponse hop ts

/-- No step sends more than one response, and one that sends a response leaves no operation. -/
theorem Stepped.none_or_one {s t : State} (h : Stepped s t) :
    t.responses = s.responses ∨ ((∃ r, t.responses = s.responses ++ [r]) ∧ t.op = none) := by
  cases h with
  | reset => exact .inl rfl
  | illegal => exact .inr ⟨⟨_, rfl⟩, rfl⟩
  | executed _ _ _ _ _ _ _ hexec => exact (exec_executed hexec).none_or_one
  | idle => exact .inl rfl
  | resumed o ts _ _ hop => exact (resumed_endsWithOneResponse hop ts).none_or_one

/-- Settles O52, clause by clause: the step that executes an operation, the later ones, and every step. -/
theorem anOperationSendsOneResponseAtItsEnd : Obligations.AnOperationSendsOneResponseAtItsEnd :=
  ⟨fun _ _ _ h => or_assoc.1 (exec_executed h).responses_cases,
    fun _ _ _ hop hreset h => (step_stepped h).endsWithOneResponse hop hreset,
    fun _ _ h => (step_stepped h).none_or_one⟩

/-! ### The frame -/

/-- An operation that uses the port keeps the buffer and FAULT, adds port events, and takes answers from the front. -/
theorem Executed.port_frame {i : Instr} {s t : State} (h : Executed i s t) (hport : usesPort i = true) :
    t.buf = s.buf ∧ t.fault = s.fault ∧ (∃ events, t.downstream = s.downstream ++ events) ∧
      ∃ taken, s.iface = taken ++ t.iface := by
  cases h with
  | answered _ _ hno => simp [hport] at hno
  | outOfBounds _ hno => simp [hport] at hno
  | ran ts =>
    obtain ⟨-, hbuf, hfault, -⟩ := runTransactions_frame i ts 0 s
    exact ⟨hbuf, hfault, runTransactions_downstream i ts 0 s, runTransactions_iface i ts 0 s⟩

/-- An operation that does not use the port leaves its events and its script. -/
theorem Executed.portless_frame {i : Instr} {s t : State} (h : Executed i s t) (hport : usesPort i = false) :
    t.downstream = s.downstream ∧ t.iface = s.iface := by
  cases h with
  | answered => exact ⟨rfl, rfl⟩
  | outOfBounds => simp
  | ran _ hyes => simp [hport] at hyes

/-- An operation that checks no bounds keeps FAULT. -/
theorem Executed.fault_eq {i : Instr} {s t : State} (h : Executed i s t) (hc : checksBounds i = false) : t.fault = s.fault :=
  h.fault_cases.resolve_right fun ⟨hyes, _⟩ => by simp [hc] at hyes

/-- Settles O53: the frame of an operation that uses the port, of one that does not, and of both. -/
theorem everyOperationKeepsItsFrame : Obligations.EveryOperationKeepsItsFrame := by
  intro s t i h
  have hexec := exec_executed h
  have hresponse : t.responses = s.responses ∨ ∃ r, t.responses = s.responses ++ [r] :=
    hexec.none_or_one.imp_right And.left
  refine ⟨executed_frame hexec, fun hi => ?_, fun hi => ?_, hexec.buf_eq, hexec.fault_eq⟩
  · have hport : usesPort i = true := by
      rcases hi with rfl | rfl | rfl | rfl | ⟨_, _, _, _, rfl⟩ | ⟨_, rfl⟩ | ⟨_, rfl⟩ <;> rfl
    obtain ⟨hbuf, hfault, hevents, htaken⟩ := hexec.port_frame hport
    exact ⟨hbuf, hfault, hevents, htaken, hresponse⟩
  · have hport : usesPort i = false := by
      rcases hi with rfl | rfl | ⟨_, _, rfl⟩ | ⟨_, _, _, rfl⟩ | ⟨_, rfl⟩ | ⟨_, _, _, _, _, rfl⟩ <;> rfl
    obtain ⟨hevents, hscript⟩ := hexec.portless_frame hport
    exact ⟨hevents, hscript, hresponse⟩

/-! ### The invariant -/

/-- The scripts of the two neighbours are no part of the invariant (R202). -/
theorem Invariant.withScripts {s : State} (hs : Invariant s) (host : List HostInput) (iface : List IfaceInput) :
    Invariant { s with host := host, iface := iface } where
  config := hs.config
  bufWf := hs.bufWf
  bufBound := hs.bufBound
  fault := hs.fault
  faulted := hs.faulted
  op := fun o ho => by
    obtain ⟨ts, hseq, hlt⟩ := hs.op o ho
    exact ⟨ts, sequenceOf_transfer hseq rfl rfl, hlt⟩
  responses := hs.responses
  port := hs.port
  unanswered := hs.unanswered

/-- The engine goes on with an operation or ends it: new port events in the order of R27, legal responses, and a position of
the operation's own sequence keep the invariant. -/
theorem Invariant.advance {s : State} (hs : Invariant s) (hfault : s.fault = faultNone) (iface : List IfaceInput)
    {op : Option Operation} {events : List PortEvent} {replies : List ResponseWord}
    (hop : ∀ o, op = some o → ∃ ts, sequenceOf o.request s = some ts ∧ o.step < ts.length)
    (hevents : portOutstanding s.awaiting events = some ({ s with op := op } : State).awaiting)
    (hmark : PortEvent.abandoned ∉ events) (hreplies : ∀ r ∈ replies, responseLegal r = true) :
    Invariant { s with iface := iface, op := op, downstream := s.downstream ++ events,
                       responses := s.responses ++ replies } where
  config := hs.config
  bufWf := hs.bufWf
  bufBound := hs.bufBound
  fault := hs.fault
  faulted := fun hne => absurd hfault hne
  op := fun o ho => by
    obtain ⟨ts, hseq, hlt⟩ := hop o ho
    exact ⟨ts, sequenceOf_transfer hseq rfl rfl, hlt⟩
  responses := fun r hr => (List.mem_append.1 hr).elim (hs.responses r) (hreplies r)
  port := by
    rw [portOutstanding_append, hs.port]
    exact hevents
  unanswered := fun h => hs.unanswered ((List.mem_append.1 h).resolve_right hmark)

/-- An operation that uses no port ends: only the buffer, FAULT and the responses are its own to change. -/
theorem Invariant.finish {s t : State} (hs : Invariant s) (hidle : s.awaiting = false) (hconfig : t.config = s.config)
    (hmem : Memory.wf t.buf = true ∧ ∀ c ∈ t.buf, c.1 < nBytes s.config) (hfault : t.fault ≠ 3#2) (hop : t.op = none)
    (hdown : t.downstream = s.downstream) (hmark : t.abandoned = s.abandoned) {replies : List ResponseWord}
    (hresponses : t.responses = s.responses ++ replies) (hreplies : ∀ r ∈ replies, responseLegal r = true) :
    Invariant t where
  config := hconfig ▸ hs.config
  bufWf := hmem.1
  bufBound := hconfig ▸ hmem.2
  fault := hfault
  faulted := fun _ => hop
  op := by simp [hop]
  responses := fun r hr => by
    rw [hresponses] at hr
    exact (List.mem_append.1 hr).elim (hs.responses r) (hreplies r)
  port := by rw [hdown, hs.port, hidle, State.awaiting, hop]
  unanswered := by
    rw [hdown, hmark]
    exact hs.unanswered

/-- An operation's one reply is legal when it carries no error code, or reports a transport error (R67). -/
theorem responseLegal_singleton (st : Status) (v : BitVec 16) {e : BitVec 32} (h : st = .transportError ∨ e = 0#32) :
    ∀ r ∈ [responseWord st v e], responseLegal r = true := by
  simpa using responseLegal_responseWord st v e h

/-- Running the rest of an operation's sequence, with nothing outstanding, keeps the invariant wherever it ends. -/
theorem runTransactions_invariant {i : Instr} {before ts : List Transaction} {s : State} (hs : Invariant s)
    (hfault : s.fault = faultNone) (hidle : s.awaiting = false) (hseq : sequenceOf i s = some (before ++ ts)) :
    Invariant (runTransactions i ts before.length s) := by
  obtain ⟨pre, post, rest, rfl, hend⟩ := runTransactions_cases i ts before.length s
  have inSequence : post ≠ [] → ∀ (pending : Bool) (o : Operation),
      some ⟨i, before.length + pre.length, pending⟩ = some o →
      ∃ ts, sequenceOf o.request s = some ts ∧ o.step < ts.length := by
    intro hpost pending o ho
    obtain rfl := Option.some.inj ho
    have := List.length_pos_iff.2 hpost
    exact ⟨_, hseq, by simp; omega⟩
  rcases hend with ⟨-, h⟩ | ⟨hpost, h⟩ | ⟨t, post', rfl, h⟩ | ⟨t, post', e, rfl, h⟩ <;> rw [h]
  · exact hs.advance hfault rest (by simp) (by rw [hidle, portOutstanding_exchanges]; rfl) (by simp)
      (responseLegal_singleton .ok _ (.inr rfl))
  · simpa using hs.advance hfault rest (replies := []) (inSequence hpost false)
      (events := exchanges pre) (by rw [hidle, portOutstanding_exchanges]; rfl) (by simp) (by simp)
  · simpa using hs.advance hfault rest (replies := []) (inSequence (by simp) true)
      (events := exchanges pre ++ [.sent t])
      (by rw [hidle, portOutstanding_append, portOutstanding_exchanges]; rfl) (by simp) (by simp)
  · rw [List.append_assoc]
    exact hs.advance hfault rest (by simp)
      (by rw [hidle, portOutstanding_append, portOutstanding_exchanges]; rfl) (by simp)
      (responseLegal_singleton .transportError _ (.inl rfl))

/-- Executing an operation in a ready engine keeps the invariant. -/
theorem exec_invariant {i : Instr} {s t : State} (hs : Invariant s) (hready : s.busy = false) (h : exec i s = .next t) :
    Invariant t := by
  obtain ⟨hop, hfault⟩ := (busy_eq_false_iff s).1 hready
  have hidle : s.awaiting = false := by simp [State.awaiting, hop]
  have hmem := exec_memory hs.config hs.bufWf hs.bufBound h
  cases exec_executed h with
  | answered value m =>
    exact hs.finish hidle rfl hmem hs.fault rfl rfl rfl rfl (responseLegal_singleton .ok value (.inr rfl))
  | outOfBounds m =>
    cases hc : s.config.checked with
    | true =>
      exact hs.finish hidle (by simp) hmem (by simp [raiseOutOfBounds_fault, hc, faultContractViolation]) (by simp) (by simp)
        (by simp) (by rw [raiseOutOfBounds_responses, if_pos hc])
        (responseLegal_singleton .contractViolation 0#16 (.inr rfl))
    | false =>
      exact hs.finish hidle (by simp) hmem (by simp [raiseOutOfBounds_fault, hc, faultUndefinedAccess]) (by simp) (by simp)
        (by simp) (replies := []) (by simp [raiseOutOfBounds_responses, hc]) (by simp)
  | ran ts _ hseq => exact runTransactions_invariant (before := []) hs hfault hidle hseq

/-- Going on with the operation in progress keeps the invariant. -/
theorem resumed_invariant {o : Operation} {ts : List Transaction} {s : State} (hs : Invariant s)
    (hfault : s.fault = faultNone) (hop : s.op = some o) (hseq : sequenceOf o.request s = some ts) :
    Invariant (Resumed o ts s) := by
  have hlt : o.step < ts.length := by
    obtain ⟨ts', hseq', hlt⟩ := hs.op o hop
    obtain rfl := Option.some.inj (hseq.symm.trans hseq')
    exact hlt
  have hawaiting : s.awaiting = o.pending := by simp [State.awaiting, hop]
  unfold Resumed
  split
  · next hpending =>
    rw [hpending] at hawaiting
    rcases awaitAnswer_cases (runTransactions o.request (ts.drop (o.step + 1)) (o.step + 1)) s with
      ⟨rest, -, h⟩ | ⟨code, rest, -, h⟩ | ⟨rest, h⟩ <;> rw [h]
    · have hanswered := hs.advance hfault rest (op := none) (events := [.answered .ok]) (replies := []) (by simp)
        (by rw [hawaiting]; rfl) (by simp) (by simp)
      rw [← runTransactions_withOp _ _ _ _ none]
      have := runTransactions_invariant (i := o.request) (before := ts.take (o.step + 1))
        (ts := ts.drop (o.step + 1)) hanswered hfault rfl
        (by rw [List.take_append_drop]; exact sequenceOf_transfer hseq rfl rfl)
      simpa [Nat.min_eq_left hlt] using this
    · exact hs.advance hfault rest (by simp) (by rw [hawaiting]; rfl) (by simp)
        (responseLegal_singleton .transportError _ (.inl rfl))
    · exact hs.withScripts s.host rest
  · next hpending =>
    simp only [Bool.not_eq_true] at hpending
    have := runTransactions_invariant (before := ts.take o.step) (ts := ts.drop o.step) hs hfault
      (hawaiting.trans hpending) (by rwa [List.take_append_drop])
    simpa [Nat.min_eq_left hlt.le] using this

/-- A reset keeps the invariant: a transaction it leaves unanswered is marked, and belongs to an operation (R190). -/
theorem applyReset_invariant {c : EngineConfig} {s : State} (hs : Invariant s) (hc : legalConfig c = true) :
    Invariant (applyReset c s) where
  config := hc
  bufWf := rfl
  bufBound := by simp
  fault := by simp
  faulted := by simp
  op := by simp
  responses := hs.responses
  port := by
    rw [applyReset_downstream]
    cases ha : s.awaiting with
    | true =>
      rw [if_pos rfl, portOutstanding_append, hs.port, ha]
      rfl
    | false =>
      rw [if_neg (by simp), hs.port, ha]
      rfl
  unanswered := by
    rw [applyReset_downstream, applyReset_abandoned]
    cases hop : s.op with
    | none =>
      rw [if_neg (by simp [State.awaiting, hop])]
      intro h
      simp [hs.unanswered h]
    | some o => simp

/-- Settles O47: each way a step can end keeps the invariant. -/
theorem stepKeepsTheInvariant : Obligations.StepKeepsTheInvariant := by
  intro s t hs h
  have hdrop : Invariant s.dropHost := hs.withScripts s.host.tail s.iface
  cases step_stepped h with
  | reset c _ _ hlegal => exact applyReset_invariant hdrop hlegal
  | illegal _ _ _ hbusy =>
    obtain ⟨hop, -⟩ := (busy_eq_false_iff s).1 hbusy
    exact hdrop.finish (by simp [State.awaiting, hop]) rfl ⟨hs.bufWf, hs.bufBound⟩ hs.fault rfl rfl rfl rfl
      (responseLegal_singleton .illegalOp 0#16 (.inr rfl))
  | executed _ _ _ _ _ hbusy _ hexec => exact exec_invariant hdrop hbusy hexec
  | idle => exact hs
  | resumed o ts _ hfault hop hseq => exact resumed_invariant hs hfault hop hseq

/-! ### Operations that wait -/

/-- `s` after the exchange of `pre`, with `rest` left of the Interface's script. -/
def State.afterExchanges (s : State) (pre : List Transaction) (rest : List IfaceInput) : State :=
  { s with iface := rest, downstream := s.downstream ++ exchanges pre }

@[simp] theorem afterExchanges_downstream (s : State) (pre : List Transaction) (rest : List IfaceInput) :
    (s.afterExchanges pre rest).downstream = s.downstream ++ exchanges pre := rfl

@[simp] theorem transactionsOf_sent (t : Transaction) : transactionsOf [.sent t] = [t] := rfl

/-- An operation whose first transactions are answered OK comes to the next one, `t`, through their exchanges (R27, R53). -/
theorem exec_through {i : Instr} {s : State} {pre post : List Transaction} {t : Transaction} (rest : List IfaceInput)
    (hseq : sequenceOf i s = some (pre ++ t :: post)) :
    exec i { s with iface := okAnswers pre.length ++ rest } =
      .next (runTransactions i (t :: post) pre.length (s.afterExchanges pre rest)) := by
  have hport : usesPort i = true := usesPort_of_sequenceOf hseq (by simp)
  have hseq' : sequenceOf i { s with iface := okAnswers pre.length ++ rest } = some (pre ++ t :: post) :=
    sequenceOf_transfer hseq rfl rfl
  rw [exec_of_sequence hport hseq', runTransactions_through i pre (t :: post) 0 _ rest (by simp) rfl, Nat.zero_add]
  rfl

/-- With an operation in progress and no reset presented, the step goes on with it (R29). -/
theorem step_of_op {s : State} {o : Operation} {ts : List Transaction} (hfault : s.fault = faultNone) (hop : s.op = some o)
    (hreset : ∀ c rest, s.host ≠ .reset c :: rest) (hseq : sequenceOf o.request s = some ts) :
    step s = .next (Resumed o ts s) :=
  (step_of_busy hreset (by simp [State.busy, hop])).trans (engineMove_of_op hfault hop hseq)

section Resume
variable {i : Instr} {s : State} {pre post : List Transaction} {t : Transaction}
  (hfault : s.fault = faultNone) (hreset : ∀ c rest, s.host ≠ .reset c :: rest)
  (hseq : sequenceOf i s = some (pre ++ t :: post))
include hfault hreset hseq

/-- Waiting for the answer of `t`, when it comes, is running the sequence from `t` on with that answer ready. -/
theorem step_of_sent {a : Answer} {rest : List IfaceInput} (hanswer : s.iface = .answer a :: rest) :
    step (s.send i pre.length t) = .next (runTransactions i (t :: post) pre.length s) := by
  have hrun : runTransactions i (t :: post) pre.length s =
      awaitAnswer (runTransactions i post (pre.length + 1)) (s.send i pre.length t) := by
    conv_lhs => unfold runTransactions
    rw [hanswer]
  rw [hrun]
  refine (step_of_op (s := s.send i pre.length t) hfault rfl hreset (sequenceOf_transfer hseq rfl rfl)).trans ?_
  simp [Resumed, State.send]

/-- An operation held before `t` runs the sequence from `t` on. -/
theorem step_of_held : step { s with op := some ⟨i, pre.length, false⟩ } =
    .next (runTransactions i (t :: post) pre.length s) := by
  refine (step_of_op (s := { s with op := some ⟨i, pre.length, false⟩ }) hfault rfl hreset
    (sequenceOf_transfer hseq rfl rfl)).trans ?_
  simp [Resumed, runTransactions_withOp]

end Resume

/-- Settles O54: both runs come to transaction `n` through the same exchanges, and from there the wait makes no difference. -/
theorem aWaitingOperationResumesWhereItStopped : Obligations.AWaitingOperationResumesWhereItStopped := by
  intro s i ts n a rest hbusy hreset hseq hn
  obtain ⟨-, hfault⟩ := (busy_eq_false_iff s).1 hbusy
  obtain ⟨pre, t, post, rfl, rfl⟩ : ∃ pre t post, ts = pre ++ t :: post ∧ pre.length = n :=
    ⟨ts.take n, ts[n], ts.drop (n + 1), by simp, by simp; omega⟩
  have hseq' (rest : List IfaceInput) : sequenceOf i (s.afterExchanges pre rest) = some (pre ++ t :: post) :=
    sequenceOf_transfer hseq rfl rfl
  constructor
  · refine ⟨(s.afterExchanges pre (.answer a :: rest)).send i pre.length t, ?_, rfl, ?_, ?_⟩
    · exact (exec_through _ hseq).trans (congrArg _ (runTransactions_silent i t post _ _ _ rfl))
    · simp [List.take_append]
    · exact (step_of_sent (s := s.afterExchanges pre (.answer a :: rest)) hfault hreset (hseq' _) rfl).trans
        (exec_through _ hseq).symm
  · refine ⟨{ s.afterExchanges pre rest with op := some ⟨i, pre.length, false⟩ }, ?_, rfl, rfl, ?_, ?_⟩
    · exact (exec_through _ hseq).trans (congrArg _ (runTransactions_hold i t post _ _ _ rfl))
    · simp
    · exact (step_of_held (s := s.afterExchanges pre rest) hfault hreset (hseq' _)).trans (exec_through _ hseq).symm

end Sys2Proof.Machine

/-! ## The buffer memory (20_memory.md)

Which nibble a pixel is, that the buffer of a state is determined by what it reads, that writing twice is writing once, and
that no operation leaves the buffer. -/

namespace Sys2Proof.Machine

/-! ### Pixels and their nibbles -/

/-- The nibble of a pixel, by the parity of its index, in the upper half of a byte (R82, R84). -/
theorem nibbleOut_nibbleShift (b : Byte) (i : Nat) :
    nibbleOut b (nibbleShift i) = if i % 2 = 0 then b &&& 0xF0#8 else b <<< 4 := by
  unfold nibbleOut nibbleShift
  split <;>
  · apply BitVec.eq_of_getLsbD_eq
    intro j hj
    interval_cases j <;> simp

/-- Settles O22: the byte of a pixel is half its index, and its parity selects the nibble. -/
theorem evenPixelIsTheHighNibble : Obligations.EvenPixelIsTheHighNibble := by
  intro s x y i b
  rw [pixelAt, byteIndex_eq]
  exact nibbleOut_nibbleShift b i

/-- Settles O23: a row has WIDTH/2 bytes, and half the column counts within them. -/
theorem pixelsHaveTheirOwnNibbles : Obligations.PixelsHaveTheirOwnNibbles := by
  intro c x y x' y' hc hin hin' W a
  obtain ⟨hx, -⟩ := (inBounds_iff c x y).1 hin
  obtain ⟨hx', -⟩ := (inBounds_iff c x' y').1 hin'
  obtain ⟨k, hk, -⟩ := widthOf_even hc
  have ha : a = x / 2 + y * k := byteIndex_pixel hk x y
  have hrow (n : Nat) : n * W / 2 = n * k := by
    rw [show W = 2 * k from hk, Nat.mul_left_comm, Nat.mul_div_cancel_left _ (by decide)]
  refine ⟨byteIndex_eq _, byteIndex_lt hc hin, ?_, ?_, pixel_injective hc hx hx'⟩
  · rw [hrow, ha]
    exact Nat.le_add_left _ _
  · rw [hrow, ha, Nat.succ_mul]
    omega

/-! ### The canonical form -/

/-- Below the first entry of a canonical memory there is nothing but 0x00 (R26). -/
theorem read_below_cons {c : Host.Cell} {m : Memory} (h : Memory.wf (c :: m) = true) {a : Nat} (ha : a < c.1) :
    Memory.read (c :: m) a = 0#8 := by
  obtain ⟨-, hlt, -⟩ := (wf_cons c m).1 h
  refine read_of_below fun d hd => ?_
  rcases List.mem_cons.1 hd with rfl | hd
  · exact ha
  · exact ha.trans (hlt d hd)

/-- Memories in canonical form are equal when every byte reads the same (R26). -/
theorem eq_of_read_eq {m m' : Memory} (hm : Memory.wf m = true) (hm' : Memory.wf m' = true)
    (h : ∀ a, Memory.read m a = Memory.read m' a) : m = m' := by
  induction m generalizing m' with
  | nil =>
    cases m' with
    | nil => rfl
    | cons c' m' =>
      obtain ⟨hc', -⟩ := (wf_cons c' m').1 hm'
      exact absurd (by simpa using (h c'.1).symm) hc'
  | cons c m ih =>
    obtain ⟨hc, hlt, hwf⟩ := (wf_cons c m).1 hm
    have hread : Memory.read m' c.1 = c.2 := by simpa using (h c.1).symm
    cases m' with
    | nil => exact absurd hread.symm hc
    | cons c' m' =>
      obtain ⟨hc', hlt', hwf'⟩ := (wf_cons c' m').1 hm'
      have hread' : Memory.read (c :: m) c'.1 = c'.2 := by simpa using h c'.1
      have haddr : c.1 = c'.1 := by
        rcases Nat.lt_trichotomy c.1 c'.1 with hl | he | hg
        · exact absurd (hread.symm.trans (read_below_cons hm' hl)) hc
        · exact he
        · exact absurd (hread'.symm.trans (read_below_cons hm hg)) hc'
      obtain rfl : c = c' := Prod.ext haddr (by simpa [haddr] using hread.symm)
      have htail (a : Nat) : Memory.read m a = Memory.read m' a := by
        by_cases ha : c.1 = a
        · subst ha
          rw [read_of_below hlt, read_of_below hlt']
        · simpa [ha] using h a
      rw [ih hwf hwf' htail]

/-- A fill repeated is a fill (R49). -/
theorem fill_fill {m : Memory} (hm : Memory.wf m = true) (n : Nat) (p : Byte) :
    Memory.fill (Memory.fill m n p) n p = Memory.fill m n p := by
  refine eq_of_read_eq (wf_fill (wf_fill hm n p) n p) (wf_fill hm n p) fun a => ?_
  simp only [read_fill]
  split <;> rfl

/-- The memory with the nibble of pixel index `i` replaced by v[7:4], by read-modify-write of its byte (R85). -/
def Memory.writeNibble (m : Memory) (i : Nat) (v : Byte) : Memory :=
  Memory.write m (byteIndex i) (nibbleIn (Memory.read m (byteIndex i)) (nibbleShift i) v)

/-- A nibble written again is the nibble written once (R49). -/
theorem writeNibble_writeNibble {m : Memory} (hm : Memory.wf m = true) (i : Nat) (v : Byte) :
    (m.writeNibble i v).writeNibble i v = m.writeNibble i v := by
  unfold Memory.writeNibble
  rw [read_write_same hm, nibbleIn_idem]
  refine eq_of_read_eq (wf_write (wf_write hm _ _) _ _) (wf_write hm _ _) fun a => ?_
  simp only [read_write (wf_write hm _ _), read_write hm]
  split <;> rfl

/-! ### Doing it twice -/

/-- What SET_PIXEL leaves when it does not stop: the nibble written, or nothing of a pixel outside (R85, R172, R173). -/
theorem setPixel_config_buf {s t : State} {x y : Nat} {v : Byte} (h : exec (.setPixel x y v) s = .next t) :
    t.config = s.config ∧
      t.buf = if inBounds s.config x y then s.buf.writeNibble (pixelIndex s.config x y) v else s.buf := by
  simp only [exec, execSetPixel] at h
  cases hin : inBounds s.config x y with
  | false =>
    rw [visitPixel_outside v hin] at h
    obtain rfl := Host.Outcome.next.inj h
    simp
  | true =>
    by_cases hlt : byteIndex (pixelIndex s.config x y) < nBytes s.config
    · simp only [visitPixel, hin, State.bufRead, State.bufWrite, hlt, if_true, finishVisit] at h
      obtain rfl := Host.Outcome.next.inj h
      exact ⟨rfl, rfl⟩
    · simp only [visitPixel, hin, State.bufRead, hlt, if_true, if_false, finishVisit, reduceCtorEq] at h

/-- Settles O31: both operations leave a canonical buffer, and the second time they write what it reads. -/
theorem fillAndSetPixelAreIdempotent : Obligations.FillAndSetPixelAreIdempotent := by
  intro s t u x y v hwf
  constructor
  · intro hst htu
    obtain rfl := Host.Outcome.next.inj hst
    obtain rfl := Host.Outcome.next.inj htu
    exact fill_fill hwf _ _
  · intro hst htu
    obtain ⟨hconfig, ht⟩ := setPixel_config_buf hst
    obtain ⟨-, hu⟩ := setPixel_config_buf htu
    rw [hu, hconfig, ht]
    split
    · exact writeNibble_writeNibble hwf _ v
    · rfl

/-! ### No access leaves the buffer -/

/-- Visiting a pixel touches a byte of the buffer or none (R41, R83). -/
theorem visitPixel_ne_noSuchByte (v : Byte) (x y : Nat) {s : State} (hc : legalConfig s.config = true) :
    visitPixel v x y s ≠ .noSuchByte := by
  cases hin : inBounds s.config x y with
  | true => simp [visitPixel_eq v hc hin]
  | false => simp [visitPixel_outside v hin]

theorem visitRow_ne_noSuchByte (v : Byte) (y n x : Nat) {s : State} (hc : legalConfig s.config = true) :
    visitRow v y n x s ≠ .noSuchByte := by
  induction n generalizing x s with
  | zero => simp [visitRow]
  | succ n ih =>
    rcases visitPixel_frame v x y s with h | ⟨m, h | h⟩
    · exact absurd h (visitPixel_ne_noSuchByte v x y hc)
    · simpa only [visitRow, h] using ih (x + 1) (s := { s with buf := m }) hc
    · simp [visitRow, h]

theorem visitRows_ne_noSuchByte (v : Byte) (x w n y : Nat) {s : State} (hc : legalConfig s.config = true) :
    visitRows v x w n y s ≠ .noSuchByte := by
  induction n generalizing y s with
  | zero => simp [visitRows]
  | succ n ih =>
    rcases visitRow_frame v y w x s with h | ⟨m, h | h⟩
    · exact absurd h (visitRow_ne_noSuchByte v y w x hc)
    · simpa only [visitRows, h] using ih (y + 1) (s := { s with buf := m }) hc
    · simp [visitRows, h]

/-- A visit that stays inside the buffer ends its operation. -/
theorem finishVisit_next {r : Visit} (h : r ≠ .noSuchByte) : ∃ t, finishVisit r = .next t := by
  cases r with
  | done s => exact ⟨_, rfl⟩
  | outOfBounds s => exact ⟨_, rfl⟩
  | noSuchByte => exact absurd rfl h

theorem execGetPixel_next (x y : Nat) {s : State} (hc : legalConfig s.config = true) :
    ∃ t, execGetPixel x y s = .next t := by
  cases hin : inBounds s.config x y with
  | false => exact ⟨_, by simp only [execGetPixel, hin, Bool.false_eq_true, if_false]; rfl⟩
  | true => exact ⟨_, by simp only [execGetPixel, hin, State.bufRead, byteIndex_lt hc hin, if_true]; rfl⟩

/-- Every operation has its transaction sequence: the bytes it reads are all in the buffer (R110, R121). -/
theorem sequenceOf_isSome (i : Instr) {s : State} (hc : legalConfig s.config = true) :
    ∃ ts, sequenceOf i s = some ts := by
  cases hport : usesPort i with
  | false => exact ⟨[], sequenceOf_of_portless hport s⟩
  | true =>
    cases i <;> simp only [usesPort, Bool.false_eq_true] at hport
    case flush => exact ⟨_, flushSequence_eq s⟩
    case partialFlush x y w h =>
      cases hd : dirtyWindow s.config x y w h with
      | none => exact ⟨[], by simp only [sequenceOf, partialFlushSequence, windowEncode, hd]⟩
      | some d => exact ⟨_, partialFlushSequence_eq hc hd⟩
    case initDisplay => exact ⟨_, initSequence_eq s⟩
    all_goals exact ⟨_, rfl⟩

/-- In a legal configuration every operation answers a next state (R41, R121). -/
theorem exec_next (i : Instr) {s : State} (hc : legalConfig s.config = true) : ∃ t, exec i s = .next t := by
  cases hport : usesPort i with
  | true =>
    obtain ⟨ts, hseq⟩ := sequenceOf_isSome i hc
    exact ⟨_, exec_of_sequence hport hseq⟩
  | false =>
    cases i <;> simp only [usesPort, Bool.true_eq_false] at hport
    case getPixel x y => exact execGetPixel_next x y hc
    case setPixel x y v => exact finishVisit_next (visitPixel_ne_noSuchByte v x y hc)
    case partialFill x y w h v => exact finishVisit_next (visitRows_ne_noSuchByte v x w h y hc)
    all_goals exact ⟨_, rfl⟩

/-- The engine's own move answers a next state: an operation in progress has its sequence (R29). -/
theorem engineMove_next {s : State} (hs : Invariant s) : ∃ t, engineMove s = .next t := by
  by_cases hfault : s.fault = faultNone
  · cases hop : s.op with
    | none => exact ⟨s, by simp only [engineMove, hop, ite_self]⟩
    | some o =>
      obtain ⟨ts, hseq, -⟩ := hs.op o hop
      exact ⟨_, engineMove_of_op hfault hop hseq⟩
  · exact ⟨s, if_neg hfault⟩

/-- Accepting a request answers a next state, whether the word decodes or not (R69). -/
theorem acceptRequest_next (word : RequestWord) {s : State} (hc : legalConfig s.config = true) :
    ∃ t, acceptRequest word s = .next t := by
  unfold acceptRequest
  split
  · exact exec_next _ hc
  · exact ⟨_, rfl⟩

/-- Settles O48, by what moves next: a reset, a request taken by a ready engine, or the engine itself. -/
theorem noAccessLeavesTheBuffer : Obligations.NoAccessLeavesTheBuffer := by
  intro s hs
  unfold step machineMove
  split
  · next c rest hhost =>
    cases hlegal : legalConfig c with
    | true => exact .inl ⟨_, by rw [hostReset, if_pos hlegal]⟩
    | false => exact .inr ⟨by simp [hostReset, hlegal], c, rest, hhost, hlegal⟩
  · next word rest _ =>
    split
    · exact .inl (engineMove_next hs)
    · exact .inl (acceptRequest_next word hs.config)
  · exact .inl (engineMove_next hs)

end Sys2Proof.Machine

/-! ## The request word, the response word and the assembler (30_encoding.md)

A word decodes by its opcode's row and by the fields the row's format leaves unused. The two round trips, R64 and R65 follow
from that one rule, `decode_eq_ok_iff`. -/

namespace Sys2Proof

/-! ### The fields a format uses -/

/-- Whether a format uses V, or a bit of it (R64). -/
@[simp] def Format.usesV : Format → Bool
  | .f0 | .fxy | .fr => false
  | .fv | .fb | .fvxy | .fvr => true

/-- Whether a format uses X and Y (R64). -/
@[simp] def Format.usesPoint : Format → Bool
  | .f0 | .fv | .fb => false
  | .fxy | .fvxy | .fr | .fvr => true

/-- Whether a format uses W and H (R64). -/
@[simp] def Format.usesSize : Format → Bool
  | .f0 | .fv | .fb | .fxy | .fvxy => false
  | .fr | .fvr => true

/-- Every field that a format does not use is zero (R64, R65 (b)); FB uses V[0] alone. -/
abbrev Format.Admits (format : Format) (f : RequestFields) : Prop :=
  f.rsv = 0#16 ∧ (format.usesV = false → f.v = 0#8) ∧ (format = .fb → f.v.extractLsb' 1 7 = 0#7) ∧
  (format.usesPoint = false → f.x = 0#16 ∧ f.y = 0#16) ∧ (format.usesSize = false → f.w = 0#16 ∧ f.h = 0#16)

/-- FB's mask on V clears V[0] and keeps the rest. -/
theorem and_flagMask_eq_zero_iff (v : Byte) : v &&& 0xFE#8 = 0#8 ↔ v.extractLsb' 1 7 = 0#7 := by
  revert v
  decide

/-- A flag byte is its bit 0, zero-extended. -/
theorem setWidth_ofBool_flag {v : Byte} (h : v.extractLsb' 1 7 = 0#7) :
    (BitVec.ofBool v[0]).setWidth 8 = v := by
  revert v
  decide

/-- A word matches a row exactly when it has the row's opcode and the fields the row's format does not use are zero (R64). -/
theorem masked_eq_matchWord_iff (word : RequestWord) (r : OpRow) : word &&& r.format.mask = r.matchWord ↔
    (splitWord word).op = r.opcode ∧ r.format.Admits (splitWord word) := by
  obtain ⟨opcode, name, format⟩ := r
  rw [matchWord_eq, masked_eq_iff, splitWord_mask]
  generalize splitWord word = f
  cases format <;> simp [Format.Admits, and_flagMask_eq_zero_iff, and_assoc, and_comm (a := f.rsv = _)]

/-! ### Decoding -/

/-- The row of an opcode is the one `findRow` finds (R63). -/
theorem findRow_opcode : ∀ r ∈ opcodeMap, findRow r.opcode = some r := by decide

/-- Decoding a word with a row's opcode (R69). -/
theorem decode_of_opcode {word : RequestWord} {r : OpRow} (hr : r ∈ opcodeMap) (hop : (splitWord word).op = r.opcode) :
    decode word = if r.format.Admits (splitWord word) then .ok (assembleOperands r.name (splitWord word))
      else .error (.unusedBitSet r.name) := by
  have hrow : findRow (splitWord word).op = some r := by rw [hop, findRow_opcode r hr]
  have hmatch := masked_eq_matchWord_iff word r
  rw [matchWord_eq, masked_eq_iff] at hmatch
  exact (decode_of_row hrow).trans (if_congr (hmatch.trans (and_iff_right hop)) rfl rfl)

/-- A word decodes exactly by a row whose opcode it has and whose format admits its fields (R63 to R65, R69). -/
theorem decode_eq_ok_iff {word : RequestWord} {i : Instr} : decode word = .ok i ↔
    ∃ r ∈ opcodeMap, (splitWord word).op = r.opcode ∧ r.format.Admits (splitWord word) ∧
      assembleOperands r.name (splitWord word) = i := by
  constructor
  · intro h
    obtain ⟨hnone, -⟩ | ⟨r, hr, hop, -⟩ := findRow_cases (splitWord word).op
    · rw [decode_of_no_row hnone] at h
      cases h
    · rw [decode_of_opcode hr hop.symm] at h
      split at h
      · next hadmits => exact ⟨r, hr, hop.symm, hadmits, Except.ok.inj h⟩
      · cases h
  · rintro ⟨r, hr, hop, hadmits, rfl⟩
    rw [decode_of_opcode hr hop, if_pos hadmits]

/-! ### The round trips -/

/-- A coordinate that fits its field is not cut off by it (R61, R62). -/
theorem mod_eq_of_fitsField {n : Nat} (h : fitsField n = true) : n % 65536 = n :=
  Nat.mod_eq_of_lt (of_decide_eq_true h)

/-- A natural fits a field when it is at most 65535 (R61, R70). -/
theorem fitsField_iff (n : Nat) : fitsField n = true ↔ n ≤ 65535 := by
  rw [fitsField, decide_eq_true_iff, Nat.lt_succ_iff]

/-- Operands read from 16-bit fields fit them (R61). -/
@[simp] theorem fitsField_toNat (b : BitVec 16) : fitsField b.toNat = true := decide_eq_true b.isLt

/-- The row of the opcode map that an instruction belongs to (R63). -/
def Instr.row : Instr → OpRow
  | .getWidth => ⟨0x01#8, .getWidth, .f0⟩
  | .getHeight => ⟨0x02#8, .getHeight, .f0⟩
  | .getPixel _ _ => ⟨0x10#8, .getPixel, .fxy⟩
  | .setPixel _ _ _ => ⟨0x11#8, .setPixel, .fvxy⟩
  | .fill _ => ⟨0x20#8, .fill, .fv⟩
  | .partialFill _ _ _ _ _ => ⟨0x21#8, .partialFill, .fvr⟩
  | .flush => ⟨0x30#8, .flush, .f0⟩
  | .partialFlush _ _ _ _ => ⟨0x31#8, .partialFlush, .fr⟩
  | .initDisplay => ⟨0x40#8, .initDisplay, .f0⟩
  | .displayOn => ⟨0x41#8, .displayOn, .f0⟩
  | .displayOff => ⟨0x42#8, .displayOff, .f0⟩
  | .setContrast _ => ⟨0x43#8, .setContrast, .fv⟩
  | .setInverted _ => ⟨0x44#8, .setInverted, .fb⟩

/-- The row of an instruction is one of the opcode map (R63). -/
theorem Instr.row_mem (i : Instr) : i.row ∈ opcodeMap := by
  cases i <;> simp [Instr.row, opcodeMap]

/-- The opcode of an instruction's word is its row's (R61, R63). -/
theorem Instr.fields_op (i : Instr) : i.fields.op = i.row.opcode := by
  cases i <;> rfl

/-- The fields of an instruction are zero where its format has none (R64). -/
theorem Instr.row_admits_fields (i : Instr) : i.row.format.Admits i.fields := by
  cases i with
  | setInverted b => cases b <;> decide
  | _ => simp [Instr.row, Instr.fields, Format.Admits]

/-- The operands read from the fields of a well-formed instruction are its own (R62). -/
theorem assembleOperands_fields {i : Instr} (hi : i.wellFormed = true) : assembleOperands i.row.name i.fields = i := by
  cases i <;> simp_all [Instr.wellFormed, Instr.row, Instr.fields, assembleOperands, mod_eq_of_fitsField]

/-- Settles O1: the word has the row of the instruction, whose operands are read back from its fields. -/
theorem decodeOfEncodeReturnsTheInstruction : Obligations.DecodeOfEncodeReturnsTheInstruction := by
  intro i hi
  rw [decode_eq_ok_iff, encode, splitWord_joinWord]
  exact ⟨i.row, i.row_mem, i.fields_op, i.row_admits_fields, assembleOperands_fields hi⟩

/-- An instruction read from a word is well formed (R61, R62). -/
theorem wellFormed_assembleOperands (name : OpName) (f : RequestFields) : (assembleOperands name f).wellFormed = true := by
  cases name <;> simp [assembleOperands, Instr.wellFormed]

/-- The instruction read from admitted fields has those fields; what SET_INVERTED reads of V, bit 0, is all that FB admits. -/
theorem fields_assembleOperands {r : OpRow} (hr : r ∈ opcodeMap) {f : RequestFields} (hop : f.op = r.opcode)
    (hadmits : r.format.Admits f) : (assembleOperands r.name f).fields = f := by
  obtain ⟨op, v, x, y, w, h, rsv⟩ := f
  obtain ⟨hrsv, hv, hflag, hpoint, hsize⟩ := hadmits
  fin_cases hr <;> simp_all [assembleOperands, Instr.fields, Instr.opcode, setWidth_ofBool_flag]

/-- Settles O2: the instruction's fields are those of the word. -/
theorem encodeOfDecodeReturnsTheWord : Obligations.EncodeOfDecodeReturnsTheWord := by
  intro word i h
  obtain ⟨r, hr, hop, hadmits, rfl⟩ := decode_eq_ok_iff.1 h
  refine ⟨wellFormed_assembleOperands _ _, ?_⟩
  rw [encode, fields_assembleOperands hr hop hadmits, joinWord_splitWord]

/-! ### The rows and the illegal words -/

/-- The instruction read by a row has the row's opcode (R63). -/
theorem opcode_assembleOperands {r : OpRow} (hr : r ∈ opcodeMap) (f : RequestFields) :
    (assembleOperands r.name f).opcode = r.opcode := by
  fin_cases hr <;> rfl

/-- Settles O3: the rows written out are those of the opcode map, and decoding by a row is matching it. -/
theorem wordIsTheOperationWhenItMatchesItsRow : Obligations.WordIsTheOperationWhenItMatchesItsRow := by
  intro word row hrow
  obtain ⟨r, hr, rfl⟩ : ∃ r ∈ opcodeMap, (r.opcode, r.format.mask) = row := List.mem_map.1 hrow
  refine Iff.trans ?_ (masked_eq_matchWord_iff word r).symm
  constructor
  · rintro ⟨i, hi, hopcode⟩
    obtain ⟨r', hr', hop, hadmits, rfl⟩ := decode_eq_ok_iff.1 hi
    rw [opcode_assembleOperands hr'] at hopcode
    obtain rfl := opcodeMap_unique r' hr' r hr hopcode
    exact ⟨hop, hadmits⟩
  · rintro ⟨hop, hadmits⟩
    exact ⟨_, decode_eq_ok_iff.2 ⟨r, hr, hop, hadmits, rfl⟩, opcode_assembleOperands hr _⟩

/-- The opcodes whose operations use V, X and Y, W and H, and the one that uses V[0] alone (R63, R64). -/
theorem opcode_uses : ∀ r ∈ opcodeMap,
    (r.opcode ∉ [0x11#8, 0x20#8, 0x21#8, 0x43#8, 0x44#8] ↔ r.format.usesV = false) ∧
    (r.opcode = 0x44#8 ↔ r.format = .fb) ∧
    (r.opcode ∉ [0x10#8, 0x11#8, 0x21#8, 0x31#8] ↔ r.format.usesPoint = false) ∧
    (r.opcode ∉ [0x21#8, 0x31#8] ↔ r.format.usesSize = false) := by
  decide

/-- A format refuses fields for RSV, or for one that it does not use (R65 (b)). -/
theorem Format.not_admits_iff (format : Format) (f : RequestFields) : ¬ format.Admits f ↔
    f.rsv ≠ 0#16 ∨ (format.usesV = false ∧ f.v ≠ 0#8) ∨ (format = .fb ∧ f.v.extractLsb' 1 7 ≠ 0#7) ∨
    (format.usesPoint = false ∧ (f.x ≠ 0#16 ∨ f.y ≠ 0#16)) ∨ (format.usesSize = false ∧ (f.w ≠ 0#16 ∨ f.h ≠ 0#16)) := by
  simp only [not_and_or, Classical.not_imp, ne_eq]

/-- Settles O4: without a row a word is illegal by R65 (a), and with one it is legal when the row's format admits it. -/
theorem illegalWordsAreThoseOfRuleR65 : Obligations.IllegalWordsAreThoseOfRuleR65 := by
  intro word
  obtain ⟨hnone, hno⟩ | ⟨r, hr, hop, -⟩ := findRow_cases (splitWord word).op
  · refine iff_of_true ⟨_, decode_of_no_row hnone⟩ (.inl fun hmem => ?_)
    obtain ⟨r, hr, hop⟩ : ∃ r ∈ opcodeMap, r.opcode = (splitWord word).op := List.mem_map.1 hmem
    exact hno r hr hop
  · obtain ⟨hv, hflag, hpoint, hsize⟩ := opcode_uses r hr
    have hmem : (splitWord word).op ∈ opcodeMap.map (·.opcode) := List.mem_map.2 ⟨r, hr, hop⟩
    have herror : (∃ e, decode word = .error e) ↔ ¬ r.format.Admits (splitWord word) := by
      rw [decode_of_opcode hr hop.symm]
      split
      · next hadmits => exact iff_of_false nofun (not_not.2 hadmits)
      · next hadmits => exact iff_of_true ⟨_, rfl⟩ hadmits
    rw [herror, Format.not_admits_iff, ← hv, ← hflag, ← hpoint, ← hsize, hop]
    exact (or_iff_right (not_not.2 hmem)).symm

/-- Settles O5 by decoding each word. -/
theorem wordsOfTheSpecDecode : Obligations.WordsOfTheSpecDecode := by
  unfold Obligations.WordsOfTheSpecDecode
  decide

end Sys2Proof

namespace Sys2Proof.Machine

/-! ### The response word -/

/-- Settles O6 by the field accessors of the response word. -/
theorem responseWordHasTheFieldsOfRuleR66 : Obligations.ResponseWordHasTheFieldsOfRuleR66 := by
  intro st v e
  refine ⟨(statusField_responseWord st v e).trans ?_, valueField_responseWord st v e, reservedField_responseWord st v e,
    errField_responseWord st v e⟩
  cases st <;> rfl

/-! ### The assembler -/

/-- An instruction with one byte operand assembles when that operand is a byte and the others fit (R70). -/
theorem assemble_byteOperand (mk : Byte → Instr) (n : Nat) : ((byteOperand n).map mk).bind assembleInstr =
    if (mk (BitVec.ofNat 8 n)).wellFormed = true ∧ n ≤ 255 then some (encode (mk (BitVec.ofNat 8 n))) else none := by
  by_cases hn : n ≤ 255 <;> simp [byteOperand, assembleInstr, hn]

/-- SET_INVERTED's numeric operand is 0 or 1 (R70). -/
theorem assembleParts_setInverted (n : Nat) : assembleParts "SET_INVERTED" [.number n] =
    if n ≤ 1 then some (.setInverted (decide (n = 1))) else none := by
  match n with
  | 0 => rfl
  | 1 => rfl
  | n + 2 => rfl

/-- Settles O8: an operation with a byte operand checks the byte first, and the coordinates are checked by `wellFormed`. -/
theorem assemblerRefusesWhatDoesNotFit : Obligations.AssemblerRefusesWhatDoesNotFit := by
  intro x y w h v
  refine ⟨?_, ?_, ?_, ?_, ?_, ?_, ?_⟩
  · show assembleInstr _ = _
    simp [assembleInstr, Instr.wellFormed, fitsField_iff]
  · exact (assemble_byteOperand (.setPixel x y) v).trans (by simp [Instr.wellFormed, fitsField_iff, and_assoc])
  · exact (assemble_byteOperand .fill v).trans (by simp [Instr.wellFormed])
  · exact (assemble_byteOperand (.partialFill x y w h) v).trans (by simp [Instr.wellFormed, fitsField_iff, and_assoc])
  · show assembleInstr _ = _
    simp [assembleInstr, Instr.wellFormed, fitsField_iff, and_assoc]
  · exact (assemble_byteOperand .setContrast v).trans (by simp [Instr.wellFormed])
  · rw [assembleParts_setInverted]
    split <;> rfl

/-- Settles O7 by assembling each line. -/
theorem pseudoInstructionsExpand : Obligations.PseudoInstructionsExpand := by
  unfold Obligations.PseudoInstructionsExpand
  decide

end Sys2Proof.Machine

/-! ## Pixel access (40_pixel_access.md)

What GET_PIXEL and SET_PIXEL answer inside and outside the engine, and what a pixel is after one was set. -/

namespace Sys2Proof.Machine

/-! ### The value of a pixel -/

/-- Out of bounds is out of bounds in either coordinate (R83). -/
theorem inBounds_eq_false_iff (c : EngineConfig) (x y : Nat) :
    inBounds c x y = false ↔ ¬ (x < widthOf c ∧ y < heightOf c) := by
  rw [← inBounds_iff, Bool.not_eq_true]

/-- Sending a response changes no pixel. -/
@[simp] theorem pixelAt_respond (s : State) (st : Status) (value : BitVec 16) (e : BitVec 32) (x y : Nat) :
    pixelAt (s.respond st value e) x y = pixelAt s x y := rfl

/-- A nibble is answered in bits 7:4, above four zeros (R84). -/
theorem extract_low_nibbleOut (b : Byte) (shift : Nat) : ((nibbleOut b shift).setWidth 16).extractLsb' 0 4 = 0#4 := by
  unfold nibbleOut
  apply BitVec.eq_of_getLsbD_eq
  intro j hj
  simp [hj]

/-- The upper nibble of a value, moved to bits 3:0 (R85). -/
theorem setWidth_extract_high (v : Byte) : (v.extractLsb' 4 4).setWidth 8 = v >>> 4 := by
  apply BitVec.eq_of_toNat_eq
  have := v.isLt
  simp only [BitVec.toNat_setWidth, BitVec.extractLsb'_toNat, BitVec.toNat_ushiftRight, Nat.shiftRight_eq_div_pow]
  omega

/-- A one-byte value fills bits 15:8 of the response word, and bits 23:16 are zero (R66, R84). -/
theorem responseWord_byteValue (b : Byte) :
    responseWord .ok (b.setWidth 16) 0#32 = 0x00000000#32 ++ 0x0000#16 ++ b ++ 0x00#8 := by
  have hzext : b.setWidth 16 = 0#8 ++ b := BitVec.setWidth_eq_append (by decide)
  rw [responseWord_value, hzext]
  apply BitVec.eq_of_toNat_eq
  simp only [BitVec.toNat_append, BitVec.toNat_ofNat, Nat.zero_mod, Nat.zero_shiftLeft, Nat.zero_or]

/-! ### GET_PIXEL -/

/-- GET_PIXEL of a pixel in bounds answers its value (R84). -/
theorem exec_getPixel_inside {s : State} {x y : Nat} (hc : legalConfig s.config = true)
    (hin : inBounds s.config x y = true) :
    exec (.getPixel x y) s = .next (s.respond .ok ((pixelAt s x y).setWidth 16) 0#32) := by
  simp only [exec, execGetPixel, hin, State.bufRead, byteIndex_lt hc hin, if_true, pixelAt]

/-- GET_PIXEL of a pixel out of bounds takes OutOfBounds (R84). -/
theorem exec_getPixel_outside {s : State} {x y : Nat} (hout : inBounds s.config x y = false) :
    exec (.getPixel x y) s = .next (outOfBoundsEffect s) := by
  simp only [exec, execGetPixel, hout, Bool.false_eq_true, if_false, raiseOutOfBounds_eq]

/-- Settles O18: the response carries the pixel's value, whose low nibble is zero. -/
theorem getPixelAnswersTheStoredNibble : Obligations.GetPixelAnswersTheStoredNibble := by
  intro s x y hc W H i b value
  constructor
  · intro hin
    refine ⟨_, _, exec_getPixel_inside hc ((inBounds_iff _ x y).2 hin), rfl, statusField_responseWord _ _ _,
      valueField_responseWord _ _ _, reservedField_responseWord _ _ _, errField_responseWord _ _ _, ?_⟩
    rw [valueField_responseWord]
    exact extract_low_nibbleOut _ _
  · intro hout
    exact exec_getPixel_outside ((inBounds_eq_false_iff _ x y).2 hout)

/-! ### SET_PIXEL -/

/-- SET_PIXEL of a pixel in bounds writes its nibble and answers OK (R85). -/
theorem exec_setPixel_inside {s : State} {x y : Nat} (v : Byte) (hc : legalConfig s.config = true)
    (hin : inBounds s.config x y = true) : exec (.setPixel x y v) s =
      .next ({ s with buf := s.buf.writeNibble (pixelIndex s.config x y) v }.respond .ok 0#16 0#32) := by
  simp only [exec, execSetPixel, visitPixel_eq v hc hin, finishVisit, Memory.writeNibble]

/-- SET_PIXEL of a pixel out of bounds takes OutOfBounds (R85). -/
theorem exec_setPixel_outside {s : State} {x y : Nat} (v : Byte) (hout : inBounds s.config x y = false) :
    exec (.setPixel x y v) s = .next (outOfBoundsEffect s) := by
  simp only [exec, execSetPixel, visitPixel_outside v hout, finishVisit, raiseOutOfBounds_eq]

/-- SET_PIXEL in bounds paints its pixel before it answers (R85, R86). -/
theorem setPixel_paints {s t : State} {x y : Nat} {v : Byte} (hc : legalConfig s.config = true)
    (hin : inBounds s.config x y = true) (h : exec (.setPixel x y v) s = .next t) :
    ∃ u, Painted v (fun x' y' => x' = x ∧ y' = y) s u ∧ t = u.respond .ok 0#16 0#32 := by
  obtain ⟨u, hu, hp⟩ := visitPixel_spec v hc hin
  simp only [exec, execSetPixel, hu, finishVisit, Host.Outcome.next.injEq] at h
  exact ⟨u, hp, h.symm⟩

/-- Settles O19: the write replaces the pixel's nibble in its byte, and every other byte reads as before. -/
theorem setPixelReplacesOneNibble : Obligations.SetPixelReplacesOneNibble := by
  intro s x y v hc hwf W H i a sh
  constructor
  · intro hin
    refine ⟨_, exec_setPixel_inside v hc ((inBounds_iff _ x y).2 hin), ?_, fun a' ha' => read_write_other s.buf _ ha', ?_⟩
    · rw [setWidth_extract_high]
      exact read_write_same hwf _ _
    · rw [← responseWord_ok]
      rfl
  · intro hout
    exact exec_setPixel_outside v ((inBounds_eq_false_iff _ x y).2 hout)

/-- Settles O24: the other pixels are those left unpainted. -/
theorem setPixelKeepsEveryOtherPixel : Obligations.SetPixelKeepsEveryOtherPixel := by
  intro s t x y x' y' v hc hwf hin h hin' hne
  obtain ⟨u, hp, rfl⟩ := setPixel_paints hc hin h
  exact hp.outside hwf x' y' hin' fun heq => hne (Prod.ext heq.1 heq.2)

/-- Settles O25: the pixel read is the pixel painted. -/
theorem getAfterSetReturnsTheUpperNibble : Obligations.GetAfterSetReturnsTheUpperNibble := by
  intro s t u x y v hc hwf hin h hconfig hpixel
  obtain ⟨t', hp, rfl⟩ := setPixel_paints hc hin h
  have hsame : u.config = s.config := hconfig.trans hp.config_eq
  have hvalue : pixelAt u x y = v &&& 0xF0#8 := hpixel.trans (hp.inside hwf x y hin ⟨rfl, rfl⟩)
  rw [exec_getPixel_inside (hsame ▸ hc) (hsame ▸ hin), hvalue, State.respond, responseWord_byteValue]

end Sys2Proof.Machine

/-! ## Fills (41_fill.md)

What FILL leaves in every byte and in every pixel, and which pixels PARTIAL_FILL paints when its rectangle is empty, lies
inside the engine, or leaves it. -/

namespace Sys2Proof.Machine

/-! ### FILL -/

/-- FILL stores the packed byte below N_BYTES and answers OK (R100). -/
theorem exec_fill (v : Byte) (s : State) : exec (.fill v) s =
    .next ({ s with buf := s.buf.fill (nBytes s.config) (packedByte v) }.respond .ok 0#16 0#32) := rfl

/-- FILL keeps the configuration, and every in-bounds pixel is then the value's upper nibble (R100, R102). -/
theorem fill_config_pixelAt {s t : State} {x y : Nat} {v : Byte} (hc : legalConfig s.config = true)
    (hin : inBounds s.config x y = true) (h : exec (.fill v) s = .next t) :
    t.config = s.config ∧ pixelAt t x y = v &&& 0xF0#8 := by
  obtain rfl := Host.Outcome.next.inj ((exec_fill v s).symm.trans h)
  refine ⟨rfl, ?_⟩
  simp only [pixelAt, respond_config, respond_buf, read_fill, byteIndex_lt hc hin, if_true, nibbleOut_packedByte]

/-- Settles O26: a byte of the filled memory reads as the packed byte exactly when it lies below N_BYTES. -/
theorem fillSetsEveryByte : Obligations.FillSetsEveryByte := by
  intro s v
  refine ⟨_, exec_fill v s, fun a ha => ?_, fun a ha => ?_, ?_⟩
  · exact (read_fill s.buf _ _ a).trans (if_pos ha)
  · exact (read_fill s.buf _ _ a).trans (if_neg (Nat.not_lt.2 ha))
  · rw [← responseWord_ok]
    rfl

/-- Settles O27: both nibbles of the packed byte are the value's upper nibble. -/
theorem getAfterFillReturnsTheUpperNibble : Obligations.GetAfterFillReturnsTheUpperNibble := by
  intro s t x y v hc hin h
  obtain ⟨hconfig, hvalue⟩ := fill_config_pixelAt hc hin h
  rw [exec_getPixel_inside (hconfig ▸ hc) (hconfig ▸ hin), hvalue, State.respond, responseWord_byteValue]

/-! ### PARTIAL_FILL -/

/-- Which pixels are painted matters inside the engine only. -/
theorem Painted.congr {v : Byte} {P Q : Nat → Nat → Prop} {s t : State} (h : Painted v P s t)
    (hPQ : ∀ x y, inBounds s.config x y = true → (Q x y ↔ P x y)) : Painted v Q s t :=
  h.trans (painted_refl v t (P := fun _ _ => False) fun _ _ _ => id) fun x y hin => by rw [hPQ x y hin, or_false]

/-- A pixel after painting. -/
theorem Painted.pixelAt_eq {v : Byte} {P : Nat → Nat → Prop} {s t : State} (h : Painted v P s t)
    (hwf : Memory.wf s.buf = true) {x y : Nat} (hin : inBounds s.config x y = true) [Decidable (P x y)] :
    pixelAt t x y = if P x y then v &&& 0xF0#8 else pixelAt s x y := by
  split
  · next hP => exact h.inside hwf x y hin hP
  · next hP => exact h.outside hwf x y hin hP

/-- Visiting a rectangle inside the engine, empty or not, paints its pixels (R101). -/
theorem visitRows_inside (v : Byte) {x y w h : Nat} {s : State} (hc : legalConfig s.config = true)
    (hx : x + w ≤ widthOf s.config) (hy : y + h ≤ heightOf s.config) :
    ∃ t, Painted v (fun x' y' => x ≤ x' ∧ x' < x + w ∧ y ≤ y' ∧ y' < y + h) s t ∧ visitRows v x w h y s = .done t := by
  rcases Nat.eq_zero_or_pos w with hw | hw
  · exact ⟨s, painted_refl v s fun _ _ _ hP => by omega, visitRows_empty v x w h y s (.inl hw)⟩
  · obtain ⟨t, hp, ht⟩ := visitRows_spec v x w h y hc hx hw
    exact ⟨t, hp, ht.trans (if_pos (.inr hy))⟩

/-- Visiting a row that reaches beyond the right edge paints its pixels inside the engine and ends out of bounds, in a row
below the engine too (R101). -/
theorem visitRow_leaves (v : Byte) (y : Nat) {x w : Nat} {s : State} (hc : legalConfig s.config = true) (hw : 0 < w)
    (hx : widthOf s.config < x + w) :
    ∃ t, Painted v (fun x' y' => y' = y ∧ x ≤ x' ∧ x' < x + w) s t ∧ visitRow v y w x s = .outOfBounds t := by
  by_cases hy : y < heightOf s.config
  · obtain ⟨t, hp, ht⟩ := visitRow_spec v y w x hc hy
    exact ⟨t, hp, ht.trans (if_neg (by omega))⟩
  · obtain ⟨n, rfl⟩ := Nat.exists_eq_add_one.2 hw
    have hout : inBounds s.config x y = false := (inBounds_eq_false_iff _ x y).2 fun hin => hy hin.2
    refine ⟨s, painted_refl v s fun x' y' hin hP => ?_, ?_⟩
    · exact hy (hP.1 ▸ ((inBounds_iff _ x' y').1 hin).2)
    · simp only [visitRow, visitPixel_outside v hout]

/-- Visiting a rectangle that leaves the engine ends out of bounds: a too wide one in its first row, one that is only too
high at its first row outside (R101). -/
theorem visitRows_leaves (v : Byte) {x y w h : Nat} {s : State} (hc : legalConfig s.config = true) (hw : 0 < w) (hh : 0 < h)
    (hleaves : ¬ (x + w ≤ widthOf s.config ∧ y + h ≤ heightOf s.config)) :
    ∃ t, Painted v (fun x' y' => x ≤ x' ∧ x' < x + w ∧ y ≤ y' ∧ y' < y + h ∧ (y' = y ∨ x + w ≤ widthOf s.config)) s t ∧
      visitRows v x w h y s = .outOfBounds t := by
  by_cases hx : x + w ≤ widthOf s.config
  · obtain ⟨t, hp, ht⟩ := visitRows_spec v x w h y hc hx hw
    exact ⟨t, hp.congr fun x' y' _ => by omega, ht.trans (if_neg (by omega))⟩
  · obtain ⟨n, rfl⟩ := Nat.exists_eq_add_one.2 hh
    obtain ⟨t, hp, ht⟩ := visitRow_leaves v y hc hw (Nat.not_le.1 hx)
    exact ⟨t, hp.congr fun x' y' _ => by omega, by simp only [visitRows, ht]⟩

/-- The effect of OutOfBounds neither reads nor writes the buffer (R172, R173). -/
theorem outOfBoundsEffect_withBuf (s : State) (m : Memory) :
    outOfBoundsEffect { s with buf := m } = { outOfBoundsEffect s with buf := m } := by
  unfold outOfBoundsEffect
  split <;> rfl

/-- Taking OutOfBounds changes no pixel (R178). -/
theorem pixelAt_outOfBoundsEffect (s : State) (x y : Nat) : pixelAt (outOfBoundsEffect s) x y = pixelAt s x y := by
  unfold outOfBoundsEffect
  split <;> rfl

/-- PARTIAL_FILL answers OK when every pixel was inside (R101). -/
theorem exec_partialFill_done {s t : State} {x y w h : Nat} {v : Byte} (ht : visitRows v x w h y s = .done t) :
    exec (.partialFill x y w h v) s = .next (t.respond .ok 0#16 0#32) := by
  simp only [exec, execPartialFill, ht, finishVisit]

/-- PARTIAL_FILL takes OutOfBounds when a pixel was outside (R101, R172, R173). -/
theorem exec_partialFill_outOfBounds {s t : State} {x y w h : Nat} {v : Byte}
    (ht : visitRows v x w h y s = .outOfBounds t) :
    exec (.partialFill x y w h v) s = .next (outOfBoundsEffect t) := by
  simp only [exec, execPartialFill, ht, finishVisit, raiseOutOfBounds_eq]

/-- Settles O28: the rectangle is what gets painted, and painting touches the bytes of its pixels only. -/
theorem partialFillWritesExactlyTheRectangle : Obligations.PartialFillWritesExactlyTheRectangle := by
  intro s x y w h v hc hwf hx hy
  obtain ⟨t, hp, ht⟩ := visitRows_inside v hc hx hy
  refine ⟨_, exec_partialFill_done ht, fun x' y' hin => hp.pixelAt_eq hwf hin, fun a ha => ?_, ?_⟩
  · refine hp.bytes a fun x' y' _ ⟨hx1, hx2, hy1, hy2⟩ => ?_
    rw [byteIndex_eq]
    exact ha x' y' hx1 hx2 hy1 hy2
  · rw [hp.frame, ← responseWord_ok]
    rfl

/-- Settles O29: an empty rectangle has no pixel to visit. -/
theorem emptyPartialFillCompletes : Obligations.EmptyPartialFillCompletes := by
  intro s x y w h v hempty
  rw [exec_partialFill_done (visitRows_empty v x w h y s hempty), ← responseWord_ok]
  rfl

/-- Settles O30: the pixels visited before the first one outside are painted, and OutOfBounds is taken after them. -/
theorem partialFillStopsAtTheFirstPixelOutside : Obligations.PartialFillStopsAtTheFirstPixelOutside := by
  intro s x y w h v hc hwf hw hh hleaves
  obtain ⟨t, hp, ht⟩ := visitRows_leaves v hc hw hh hleaves
  refine ⟨_, exec_partialFill_outOfBounds ht, fun x' y' hin => ?_, ?_⟩
  · rw [pixelAt_outOfBoundsEffect]
    exact hp.pixelAt_eq hwf hin
  · rw [hp.frame, outOfBoundsEffect_withBuf]

end Sys2Proof.Machine

/-! ## Flushes (42_flush.md)

The window of a rectangle and its jobs, the transactions the jobs become, and what FLUSH and PARTIAL_FLUSH do with them. -/

namespace Sys2Proof.Machine

/-! ### The window -/

/-- A rectangle that starts inside the engine has a window (R112). -/
theorem dirtyWindow_exists {c : EngineConfig} {x y : Nat} (hx : x < widthOf c) (hy : y < heightOf c) (w h : Nat) :
    ∃ d, dirtyWindow c x y w h = some d := by
  apply Option.ne_none_iff_exists'.1
  rw [Ne, dirtyWindow_eq_none_iff]
  omega

/-- WINDOW is NONE exactly for a rectangle that starts outside (R112). -/
theorem windowEncode_eq_none_iff (c : EngineConfig) (x y w h : Nat) :
    windowEncode c x y w h = none ↔ widthOf c ≤ x ∨ heightOf c ≤ y := by
  rw [← dirtyWindow_eq_none_iff c x y w h, windowEncode]
  split <;> simp_all

/-- The test against WIDTH gives the same result after alignment: WIDTH is even (R112). -/
theorem alignLeft_outside_iff {c : EngineConfig} (hc : legalConfig c = true) (x y w : Nat) :
    widthOf c ≤ (alignLeft c x y w).1 ↔ widthOf c ≤ x := by
  obtain ⟨k, hk, -⟩ := widthOf_even hc
  rw [(alignLeft_eq hc x y w).2]
  split
  · dsimp only
    omega
  · rfl

/-- Settles O33: the parity of the left edge decides the alignment, and an even width leaves the clamp an even column. -/
theorem windowIsAlignedThenClamped : Obligations.WindowIsAlignedThenClamped := by
  intro c x y w h hc hx hy
  obtain ⟨hshift, halign⟩ := alignLeft_eq hc x y w
  obtain ⟨d, hd⟩ := dirtyWindow_exists hx hy w h
  obtain ⟨-, -, hdy, hdh, hdx, hdw⟩ := dirtyWindow_spec hc hd
  unfold widthOf at hdw
  unfold heightOf at hdh
  refine ⟨hshift, halign, d, hd, hdy, hdh, fun heven => ?_, fun hodd => ?_, ?_, ?_, ?_⟩ <;> omega

/-! ### The jobs -/

/-- A row of the buffer has half a width of bytes (R50). -/
theorem mul_widthOf_half {c : EngineConfig} {k : Nat} (hk : widthOf c = 2 * k) (n : Nat) : n * widthOf c / 2 = n * k := by
  rw [hk, Nat.mul_left_comm, Nat.mul_div_cancel_left _ (by decide)]

/-- The full-width path: the window starts at the left edge, and one job has all its rows (R116). -/
theorem windowJobs_fullWidth {c : EngineConfig} {x y w h k : Nat} {d : Window} (hc : legalConfig c = true)
    (hk : widthOf c = 2 * k) (hd : dirtyWindow c x y w h = some d) (hw : d.w = widthOf c) :
    d.x = 0 ∧ windowJobs c d = [⟨0, d.y, d.y * k, k * d.h⟩] := by
  obtain ⟨hin, -, -, -, hdx, hdw⟩ := dirtyWindow_spec hc hd
  have hx : d.x = 0 := by omega
  have hlen : 2 * k * d.h * 4 / 8 = k * d.h := by
    rw [show 2 * k * d.h * 4 = 8 * (k * d.h) by ring, Nat.mul_div_cancel_left _ (by decide)]
  refine ⟨hx, ?_⟩
  rw [windowJobs_eq hk, if_pos hw, hx, columnValue_zero, hw, hk, hlen, Nat.zero_div, Nat.zero_add]

/-- The row path: one job per row, from top to bottom (R117, R118). -/
theorem windowJobs_rows {c : EngineConfig} {k : Nat} {d : Window} (hk : widthOf c = 2 * k) (hw : d.w < widthOf c) :
    windowJobs c d =
      (List.range d.h).map fun i => ⟨columnValue c d.x, d.y + i, d.x / 2 + (d.y + i) * k, (d.w + 1) / 2⟩ := by
  rw [windowJobs_eq hk, if_neg (Nat.ne_of_lt hw)]

/-- Which rectangles take the full-width path (R116). -/
theorem dirtyWindow_fullWidth_iff {c : EngineConfig} {x y w h : Nat} {d : Window} (hc : legalConfig c = true)
    (hd : dirtyWindow c x y w h = some d) :
    d.w = widthOf c ↔ (x = 0 ∧ widthOf c ≤ w) ∨ (x = 1 ∧ widthOf c - 1 ≤ w) := by
  obtain ⟨hx, -, -, -, hdx, hdw⟩ := dirtyWindow_spec hc hd
  obtain ⟨k, hk, hk1⟩ := widthOf_even hc
  omega

/-- COL by cases on the address mode (R115). -/
theorem columnValue_eq_ite (c : EngineConfig) (x : Nat) : columnValue c x = if c.colAddrMode = .pixel then x else x / 2 := by
  unfold columnValue
  split <;> simp [*]

/-- Settles O34: the two paths, with offsets counted in half widths, which leave no remainder. -/
theorem jobsAreThoseOfTheTwoPaths : Obligations.JobsAreThoseOfTheTwoPaths := by
  intro c x y w h d jobs hc henc W col
  obtain ⟨hd, rfl⟩ := windowEncode_eq_some.1 henc
  obtain ⟨-, -, -, -, hdx, -⟩ := dirtyWindow_spec hc hd
  obtain ⟨k, hk, -⟩ := widthOf_even hc
  have hrow (n : Nat) : n * W / 2 = n * k := mul_widthOf_half hk n
  have hpixel (r : Nat) : d.x + r * W = d.x + 2 * (r * k) := pixelIndex_even hk d.x r
  refine ⟨fun hw => ?_, fun hw => ?_, dirtyWindow_fullWidth_iff hc hd⟩
  · rw [hrow, Nat.mul_comm W, hrow, Nat.mul_comm d.h]
    exact windowJobs_fullWidth hc hk hd hw
  · have hjobs := windowJobs_rows hk hw
    refine ⟨by simp [hjobs], fun i hi => ⟨?_, ?_⟩⟩
    · have hoff : (d.x + (d.y + i) * W) / 2 = d.x / 2 + (d.y + i) * k := by
        rw [hpixel]
        omega
      simp [hjobs, hi, hoff, columnValue_eq_ite, col]
    · rw [hpixel]
      omega

/-- Settles O35: in half widths, a row path job begins in its row and is no longer than what is left of it. -/
theorem jobsStayInsideTheBufferAndTheirRow : Obligations.JobsStayInsideTheBufferAndTheirRow := by
  intro c x y w h d jobs hc henc j hj W
  obtain ⟨hd, rfl⟩ := windowEncode_eq_some.1 henc
  obtain ⟨hx, -, -, -, hdx, hdw⟩ := dirtyWindow_spec hc hd
  obtain ⟨k, hk, -⟩ := widthOf_even hc
  have hrow (n : Nat) : n * W / 2 = n * k := mul_widthOf_half hk n
  refine ⟨windowJobs_inside hc hd j hj, fun hw => ?_, fun hw => ?_⟩
  · rw [windowJobs_rows hk hw] at hj
    obtain ⟨i, -, rfl⟩ := List.mem_map.1 hj
    rw [hrow, hrow, Nat.succ_mul]
    dsimp only
    omega
  · rw [(windowJobs_fullWidth hc hk hd hw).2, List.mem_singleton] at hj
    subst hj
    rw [hrow, hrow, Nat.add_mul, Nat.mul_comm d.h]
    exact ⟨rfl, rfl⟩

/-- Settles O36: alignment adds a pixel on the left, and a byte's second nibble one on the right, inside an even width. -/
theorem windowAddsAtMostOnePixelOnEachSide : Obligations.WindowAddsAtMostOnePixelOnEachSide := by
  intro c x y w h d jobs hc henc
  obtain ⟨hd, rfl⟩ := windowEncode_eq_some.1 henc
  obtain ⟨hx, -, -, -, hdx, hdw⟩ := dirtyWindow_spec hc hd
  obtain ⟨k, hk, -⟩ := widthOf_even hc
  unfold widthOf at hx hdw hk
  refine ⟨by omega, by omega, by omega, by omega, fun hw j hj => ?_⟩
  rw [windowJobs_rows hk hw] at hj
  obtain ⟨i, -, rfl⟩ := List.mem_map.1 hj
  dsimp only
  omega

/-! ### Running a sequence -/

theorem okAnswers_add (m n : Nat) : okAnswers (m + n) = okAnswers m ++ okAnswers n :=
  List.replicate_add m n _

/-- An operation runs the sequence its rule fixes (R10, R27, R174). -/
theorem runsSequence_of_sequenceOf {i : Instr} {s : State} {ts : List Transaction} (hport : usesPort i = true)
    (hseq : sequenceOf i s = some ts) : RunsSequence i s ts := by
  refine ⟨fun rest hiface => ?_, fun n t e rest ht he hiface => ?_⟩
  · rw [exec_of_sequence hport hseq, runTransactions_allOk i ts 0 s rest hiface, responseWord_ok]
  · obtain ⟨pre, post, rfl, rfl⟩ : ∃ pre post, ts = pre ++ t :: post ∧ pre.length = n := by
      obtain ⟨hn, rfl⟩ := List.getElem?_eq_some_iff.1 ht
      exact ⟨ts.take n, ts.drop (n + 1), by simp, List.length_take_of_le (Nat.le_of_lt hn)⟩
    rw [exec_of_sequence hport hseq, runTransactions_through i pre (t :: post) 0 s _ (by simp) hiface,
      runTransactions_err _ _ _ _ _ e rest rfl, portErrorCode_of_lt he, responseWord_transportError, List.take_left]

/-- A sequence runs to its end on as many answers OK as it has transactions, or more. -/
theorem RunsSequence.completes {i : Instr} {s : State} {ts : List Transaction} (hrun : RunsSequence i s ts) {n : Nat}
    {rest : List IfaceInput} (hiface : s.iface = okAnswers n ++ rest) (hn : ts.length ≤ n) :
    ∃ t, exec i s = .next t ∧ t.op = none ∧ t.downstream = s.downstream ++ exchanges ts ∧
      t.responses = s.responses ++ [0x0000000000000000#64] := by
  refine ⟨_, hrun.1 (okAnswers (n - ts.length) ++ rest) ?_, rfl, rfl, rfl⟩
  rw [hiface, ← List.append_assoc, ← okAnswers_add, Nat.add_sub_cancel' hn]

/-! ### FLUSH and PARTIAL_FLUSH -/

/-- Settles O39: the sequence is FLUSH's, and lowering column 0 leaves the opcodes as they are. -/
theorem flushSendsTheWholeBuffer : Obligations.FlushSendsTheWholeBuffer := by
  intro s
  have hseq := flushSequence_eq s
  have hzero : lower s.config.opc (.setCol 0#8) = .cmd s.config.opc.colLow [s.config.opc.colHigh] := by
    simp [lower, lowNibble, highNibble]
  rw [hzero] at hseq
  exact runsSequence_of_sequenceOf rfl hseq

/-- The three transactions of a job whose bytes are in the buffer (R115, R143). -/
def Job.transactions (s : State) (j : Job) : List Transaction :=
  [.cmd (s.config.opc.colLow ||| (BitVec.ofNat 8 j.col &&& 0x0F#8)) [s.config.opc.colHigh ||| (BitVec.ofNat 8 j.col >>> 4)],
   .cmd s.config.opc.rowAddr [BitVec.ofNat 8 j.row],
   .data ((List.range j.len).map fun k => Memory.read s.buf (j.off + k))]

/-- With no window, PARTIAL_FLUSH has no transaction to run (R112). -/
theorem partialFlush_runsNothing {s : State} {x y w h : Nat} (hout : widthOf s.config ≤ x ∨ heightOf s.config ≤ y) :
    RunsSequence (.partialFlush x y w h) s [] := by
  have hnone := (windowEncode_eq_none_iff s.config x y w h).2 hout
  exact runsSequence_of_sequenceOf rfl (by simp only [sequenceOf, partialFlushSequence, hnone])

/-- PARTIAL_FLUSH runs the transactions of its window's jobs (R115, R119). -/
theorem partialFlush_runsJobs {s : State} {x y w h : Nat} {d : Window} (hc : legalConfig s.config = true)
    (hd : dirtyWindow s.config x y w h = some d) :
    RunsSequence (.partialFlush x y w h) s ((windowJobs s.config d).flatMap (Job.transactions s)) :=
  runsSequence_of_sequenceOf rfl (partialFlushSequence_eq hc hd)

/-- Settles O32: nothing to run is a sequence that is over at once, whatever the Interface's script. -/
theorem outsideRectangleFlushesNothing : Obligations.OutsideRectangleFlushesNothing := by
  intro s x y w h
  refine ⟨windowEncode_eq_none_iff _ x y w h, fun hout => ?_, fun hc => alignLeft_outside_iff hc x y w⟩
  simpa using (partialFlush_runsNothing hout).1 s.iface rfl

/-- Settles O40: the jobs' transactions are the operation's sequence. -/
theorem partialFlushRunsTheJobsOfItsWindow : Obligations.PartialFlushRunsTheJobsOfItsWindow := by
  intro s x y w h d jobs hc henc
  obtain ⟨hd, rfl⟩ := windowEncode_eq_some.1 henc
  exact partialFlush_runsJobs hc hd

/-! ### Counting transactions -/

/-- What a list of jobs amounts to on the port: two CMD and one DATA each (R122). -/
theorem flatMap_transactions_counts (s : State) (jobs : List Job) :
    (jobs.flatMap (Job.transactions s)).length = 3 * jobs.length ∧
    commandCount (jobs.flatMap (Job.transactions s)) = 2 * jobs.length ∧
    dataCount (jobs.flatMap (Job.transactions s)) = jobs.length ∧
    dataBytes (jobs.flatMap (Job.transactions s)) = (jobs.map Job.len).sum := by
  induction jobs with
  | nil => exact ⟨rfl, rfl, rfl, rfl⟩
  | cons j js ih =>
    obtain ⟨hlen, hcmd, hdata, hbytes⟩ := ih
    simp only [List.flatMap_cons, Job.transactions, List.cons_append, List.nil_append, List.length_cons, commandCount,
      dataCount, dataBytes, List.map_cons, List.sum_cons, List.length_map, List.length_range]
    omega

/-- How many jobs a window has, and how many bytes they carry in all (R116, R117, R122). -/
theorem windowJobs_length_bytes {c : EngineConfig} {x y w h : Nat} {d : Window} (hc : legalConfig c = true)
    (hd : dirtyWindow c x y w h = some d) :
    if d.w = widthOf c then
      (windowJobs c d).length = 1 ∧ ((windowJobs c d).map Job.len).sum = widthOf c * d.h / 2
    else (windowJobs c d).length = d.h ∧ ((windowJobs c d).map Job.len).sum = d.h * ((d.w + 1) / 2) := by
  obtain ⟨-, -, -, -, -, hdw⟩ := dirtyWindow_spec hc hd
  obtain ⟨k, hk, -⟩ := widthOf_even hc
  split
  · next hw =>
    rw [(windowJobs_fullWidth hc hk hd hw).2, Nat.mul_comm (widthOf c), mul_widthOf_half hk]
    simp [Nat.mul_comm]
  · next hw =>
    rw [windowJobs_rows hk (by omega)]
    simp [Function.comp_def]

/-- No window has more than HEIGHT jobs. -/
theorem windowJobs_length_le {c : EngineConfig} {x y w h : Nat} {d : Window} (hc : legalConfig c = true)
    (hd : dirtyWindow c x y w h = some d) : (windowJobs c d).length ≤ heightOf c := by
  obtain ⟨-, hy, -, hdh, -, -⟩ := dirtyWindow_spec hc hd
  have hcount := windowJobs_length_bytes hc hd
  split at hcount <;> omega

/-- Settles O38: the counts are those of the window's jobs. -/
theorem partialFlushTransactionCounts : Obligations.PartialFlushTransactionCounts := by
  intro s x y w h rest hc hiface
  cases hd : dirtyWindow s.config x y w h with
  | none =>
    have hrun := partialFlush_runsNothing (w := w) (h := h) ((dirtyWindow_eq_none_iff _ x y w h).1 hd)
    obtain ⟨t, hexec, hop, hdown, hresp⟩ := hrun.completes hiface (Nat.zero_le _)
    exact ⟨t, [], hexec, hop, hdown, hresp, rfl, rfl, rfl⟩
  | some d =>
    obtain ⟨hlen, hcmd, hdata, hbytes⟩ := flatMap_transactions_counts s (windowJobs s.config d)
    obtain ⟨t, hexec, hop, hdown, hresp⟩ := (partialFlush_runsJobs hc hd).completes hiface
      (hlen ▸ Nat.mul_le_mul_left 3 (windowJobs_length_le hc hd))
    refine ⟨t, _, hexec, hop, hdown, hresp, ?_⟩
    dsimp only
    rw [hcmd, hdata, hbytes]
    have hcount := windowJobs_length_bytes hc hd
    unfold widthOf at hcount
    split at hcount
    · next hw =>
      rw [if_pos hw]
      omega
    · next hw =>
      rw [if_neg hw]
      exact ⟨congrArg (2 * ·) hcount.1, hcount⟩

/-! ### FLUSH as a PARTIAL_FLUSH -/

/-- `s`, with `i` named as the operation in progress, if there is one. -/
def State.renameOp (i : Instr) (s : State) : State := { s with op := s.op.map fun o => { o with request := i } }

@[simp] theorem renameOp_iface (i : Instr) (s : State) : (s.renameOp i).iface = s.iface := rfl
@[simp] theorem observe_renameOp (i : Instr) (s : State) : observe (s.renameOp i) = observe s := rfl

@[simp] theorem renameOp_busy (i : Instr) (s : State) : (s.renameOp i).busy = s.busy := by
  simp [State.busy, State.renameOp]

@[simp] theorem renameOp_awaiting (i : Instr) (s : State) : (s.renameOp i).awaiting = s.awaiting := by
  unfold State.awaiting State.renameOp
  cases s.op <;> rfl

/-- Running a sequence for one operation is running it for another, but for the name of the operation in progress. -/
theorem runTransactions_renameOp (i i' : Instr) (ts : List Transaction) (k : Nat) (s : State) :
    runTransactions i' ts k s = (runTransactions i ts k s).renameOp i' := by
  induction ts generalizing k s with
  | nil => rfl
  | cons t ts ih =>
    unfold runTransactions
    split
    · rfl
    · unfold awaitAnswer
      dsimp only [send_iface]
      split
      · next rest _ =>
        rw [← ih]
        exact runTransactions_withOp i' ts (k + 1)
          { s.send i k t with iface := rest, downstream := (s.send i k t).downstream ++ [.answered .ok] } _
      all_goals rfl

/-- The window of the whole engine has FLUSH's one job (R110, R116). -/
theorem partialFlushSequence_whole {s : State} (hc : legalConfig s.config = true) :
    partialFlushSequence 0 0 (widthOf s.config) (heightOf s.config) s = flushSequence s := by
  obtain ⟨-, hw, -, hh, -⟩ := (legalConfig_iff s.config).1 hc
  obtain ⟨k, hk, -⟩ := widthOf_even hc
  obtain ⟨d, hd⟩ := dirtyWindow_exists (c := s.config) (x := 0) (y := 0) (by omega) (by omega)
    (widthOf s.config) (heightOf s.config)
  obtain ⟨-, -, hdy, hdh, hdx, hdw⟩ := dirtyWindow_spec hc hd
  have hdh : d.h = heightOf s.config := by omega
  have hjobs := (windowJobs_fullWidth hc hk hd (by omega)).2
  rw [partialFlushSequence_eq hc hd, flushSequence_eq, hjobs, hdy, hdh, Nat.mul_comm k, ← nBytes_even hk]
  simp

/-- Settles O41: the two operations run one sequence, under two names. -/
theorem flushIsThePartialFlushOfEverything : Obligations.FlushIsThePartialFlushOfEverything := by
  intro s hc
  have hflush : sequenceOf .flush s = some _ := flushSequence_eq s
  have hwhole := (partialFlushSequence_whole hc).trans hflush
  refine ⟨_, _, exec_of_sequence rfl hflush, exec_of_sequence rfl hwhole, ?_⟩
  simp [runTransactions_renameOp .flush (.partialFlush 0 0 _ _)]

end Sys2Proof.Machine

/-! ## Controller commands and queries (43_controller_commands.md)

The bytes a job's arguments fit in, the sequences of INIT_DISPLAY and of the single commands, the answers of the queries, and
that neither commands nor queries depend on the buffer. -/

namespace Sys2Proof.Machine

/-! ### The arguments of SetCol and SetRow -/

/-- WMAX is the limit that makes a column cursor a byte, in both address modes (R5, R115). -/
theorem columnValue_le {c : EngineConfig} (hc : legalConfig c = true) {x : Nat} (hx : x < widthOf c) :
    columnValue c x ≤ 255 := by
  obtain ⟨-, -, hmax, -⟩ := (legalConfig_iff c).1 hc
  unfold wMax at hmax
  unfold columnValue
  cases hmode : c.colAddrMode <;> simp only [hmode] at hmax ⊢ <;> omega

/-- Every job starts at the window's column and in a row of the engine (R116, R117). -/
theorem windowJobs_col_row {c : EngineConfig} {x y w h : Nat} {d : Window} (hc : legalConfig c = true)
    (hd : dirtyWindow c x y w h = some d) {j : Job} (hj : j ∈ windowJobs c d) :
    j.col = columnValue c d.x ∧ j.row < heightOf c := by
  obtain ⟨-, hy, hdy, hdh, -, -⟩ := dirtyWindow_spec hc hd
  obtain ⟨k, hk, -⟩ := widthOf_even hc
  rw [windowJobs_eq hk] at hj
  split at hj
  · obtain rfl := List.mem_singleton.1 hj
    exact ⟨rfl, hdy ▸ hy⟩
  · obtain ⟨i, hi, rfl⟩ := List.mem_map.1 hj
    have hi := List.mem_range.1 hi
    refine ⟨rfl, ?_⟩
    dsimp only
    omega

/-- Settles O37: the window's left edge is a pixel of the engine, and HEIGHT is at most 256. -/
theorem columnAndRowArgumentsFitAByte : Obligations.ColumnAndRowArgumentsFitAByte := by
  intro c x y w h d jobs hc henc j hj
  obtain ⟨hd, rfl⟩ := windowEncode_eq_some.1 henc
  obtain ⟨hx, -, -, -, hdx, -⟩ := dirtyWindow_spec hc hd
  obtain ⟨-, -, -, -, hheight, -⟩ := (legalConfig_iff c).1 hc
  obtain ⟨hcol, hrow⟩ := windowJobs_col_row hc hd hj
  exact ⟨hcol ▸ columnValue_le hc (by omega), by omega⟩

/-! ### The sequences of the controller commands -/

/-- Lowering SetCol(0) leaves both column opcodes as they are (R143). -/
theorem lower_setCol_zero (o : Opcodes) : lower o (.setCol 0#8) = .cmd o.colLow [o.colHigh] := by
  simp [lower, lowNibble, highNibble]

/-- The scan direction selects its opcode (R141, R143). -/
theorem lower_scanDir (o : Opcodes) (d : ScanDir) :
    lower o (.scanDir d) = .cmd (if d = .scanNormal then o.scanNormal else o.scanRemapped) [] := by
  cases d <;> rfl

/-- Settles O42: the sequence is INIT_DISPLAY's, with its thirteen commands lowered one by one. -/
theorem initDisplayRunsItsSixteenSteps : Obligations.InitDisplayRunsItsSixteenSteps := by
  intro s o
  apply runsSequence_of_sequenceOf rfl
  rw [sequenceOf, initSequence_eq, initCommands, columnValue_zero]
  simp only [List.map_cons, List.map_nil, lower_setCol_zero, lower_scanDir]
  rfl

/-- Settles O43: the sequence of each operation is its one command, lowered. -/
theorem singleCommandsEmitOneTransaction : Obligations.SingleCommandsEmitOneTransaction :=
  fun _ _ => ⟨runsSequence_of_sequenceOf rfl rfl, runsSequence_of_sequenceOf rfl rfl, runsSequence_of_sequenceOf rfl rfl,
    runsSequence_of_sequenceOf rfl rfl, runsSequence_of_sequenceOf rfl rfl⟩

/-! ### The buffer -/

/-- An operation that neither writes the buffer nor checks bounds keeps the buffer, the configuration and FAULT. -/
theorem Executed.keeps_buf_config_fault {i : Instr} {s t : State} (h : Executed i s t) (hwrites : writesBuffer i = false)
    (hchecks : checksBounds i = false) : t.buf = s.buf ∧ t.config = s.config ∧ t.fault = s.fault :=
  ⟨h.buf_eq hwrites, (executed_frame h).1, h.fault_eq hchecks⟩

/-- `s`, with `m` as its buffer. -/
def State.withBuf (m : Memory) (s : State) : State := { s with buf := m }

@[simp] theorem withBuf_iface (m : Memory) (s : State) : (s.withBuf m).iface = s.iface := rfl

/-- Waiting for an answer does not read the buffer, if what comes after it does not. -/
theorem awaitAnswer_withBuf {f : State → State} (m : Memory) (hf : ∀ u, f (u.withBuf m) = (f u).withBuf m) (s : State) :
    awaitAnswer f (s.withBuf m) = (awaitAnswer f s).withBuf m := by
  unfold awaitAnswer
  rw [withBuf_iface]
  split
  · next rest _ => exact hf { s with iface := rest, downstream := s.downstream ++ [.answered .ok] }
  all_goals rfl

/-- Running a sequence does not read the buffer: the payloads are in the sequence. -/
theorem runTransactions_withBuf (i : Instr) (ts : List Transaction) (k : Nat) (s : State) (m : Memory) :
    runTransactions i ts k (s.withBuf m) = (runTransactions i ts k s).withBuf m := by
  induction ts generalizing k s with
  | nil => rfl
  | cons t ts ih =>
    unfold runTransactions
    rw [withBuf_iface]
    split
    · rfl
    · exact awaitAnswer_withBuf m (ih (k + 1)) (s.send i k t)

/-- An operation whose sequence is the same with buffer `m` does the same with it. -/
theorem exec_withBuf_of_sequence {i : Instr} {s : State} {m : Memory} {ts : List Transaction} (hport : usesPort i = true)
    (hseq : sequenceOf i s = some ts) (hsame : sequenceOf i (s.withBuf m) = some ts) :
    ∃ t, exec i s = .next t ∧ exec i (s.withBuf m) = .next (t.withBuf m) :=
  ⟨_, exec_of_sequence hport hseq, runTransactions_withBuf i ts 0 s m ▸ exec_of_sequence hport hsame⟩

/-- Settles O44: the queries read the configuration alone, and the single commands' sequences carry no byte of the buffer. -/
theorem controllerOperationsAreIndependentOfTheBuffer : Obligations.ControllerOperationsAreIndependentOfTheBuffer := by
  intro s c b m
  refine ⟨fun i hi => ?_, fun t ht => (exec_executed ht).keeps_buf_config_fault rfl rfl⟩
  have hsame : writesBuffer i = false ∧ checksBounds i = false ∧
      ∃ t, exec i s = .next t ∧ exec i (s.withBuf m) = .next (t.withBuf m) := by
    simp only [List.mem_cons, List.not_mem_nil, or_false] at hi
    rcases hi with rfl | rfl | rfl | rfl | rfl | rfl
    case inl | inr.inl => exact ⟨rfl, rfl, _, rfl, rfl⟩
    all_goals exact ⟨rfl, rfl, exec_withBuf_of_sequence rfl rfl rfl⟩
  obtain ⟨hwrites, hchecks, t, hexec, hother⟩ := hsame
  obtain ⟨hbuf, hconfig, hfault⟩ := (exec_executed hexec).keeps_buf_config_fault hwrites hchecks
  exact ⟨t, hexec, hbuf, hconfig, hfault, hother⟩

/-! ### The queries -/

/-- Responding OK with a value, with the response word written out (R66, R67). -/
theorem respond_value (s : State) (v : BitVec 16) : s.respond .ok v 0#32 =
    { s with op := none, responses := s.responses ++ [0x00000000#32 ++ 0x00#8 ++ v ++ 0x00#8] } := by
  rw [State.respond, responseWord_value]

/-- Settles O17: a query responds with its configuration register. -/
theorem queriesAnswerTheConfiguredSize : Obligations.QueriesAnswerTheConfiguredSize :=
  fun s => ⟨congrArg Host.Outcome.next (respond_value s _), congrArg Host.Outcome.next (respond_value s _)⟩

end Sys2Proof.Machine

/-! ## Exceptions (60_exceptions.md)

What IllegalOp, OutOfBounds and TransportError leave, that a FAULTED engine waits for a reset, and that an idle one does
nothing of its own. -/

namespace Sys2Proof.Machine

/-! ### IllegalOp -/

/-- Taking IllegalOp, with the response word written out (R66, R171). -/
theorem raiseIllegalOp_eq (s : State) : raiseIllegalOp s =
    { s with op := none, responses := s.responses ++ [0x0000000000000002#64] } := by
  have hword : responseWord .illegalOp 0#16 0#32 = 0x0000000000000002#64 := by decide
  rw [raiseIllegalOp, State.respond, hword]

/-- A ready engine answers a word that does not decode by taking IllegalOp (R69, R171). -/
theorem step_of_illegalWord {s : State} {word : RequestWord} {rest : List HostInput} {e : DecodeError}
    (hbusy : s.busy = false) (hhost : s.host = .request word :: rest) (hword : decode word = .error e) :
    step s = .next (raiseIllegalOp { s with host := rest }) := by
  have hdrop : s.dropHost = { s with host := rest } := by simp [State.dropHost, hhost]
  simp [step, machineMove, hhost, hbusy, acceptRequest, hword, hdrop]

/-- Settles O10: in a ready engine no operation is in progress, so the response is all that IllegalOp changes. -/
theorem illegalWordIsAnsweredAndChangesNothing : Obligations.IllegalWordIsAnsweredAndChangesNothing := by
  intro s word rest hbusy hhost ⟨e, hword⟩
  obtain ⟨hop, hfault⟩ := (busy_eq_false_iff s).1 hbusy
  have hstep := step_of_illegalWord hbusy hhost hword
  rw [raiseIllegalOp_eq] at hstep
  exact ⟨_, hstep, by rw [hop], (busy_eq_false_iff _).2 ⟨rfl, hfault⟩⟩

/-! ### OutOfBounds -/

/-- PARTIAL_FILL whose first pixel is out of bounds takes OutOfBounds before it writes anything (R101). -/
theorem exec_partialFill_outside {s : State} {x y : Nat} (w h : Nat) (v : Byte) (hout : inBounds s.config x y = false) :
    exec (.partialFill x y (w + 1) (h + 1) v) s = .next (outOfBoundsEffect s) :=
  exec_partialFill_outOfBounds (by simp only [visitRows, visitRow, visitPixel_outside v hout])

/-- Taking OutOfBounds sets FAULT to the value CHECKED selects (R172, R173). -/
theorem outOfBoundsEffect_fault (s : State) : (outOfBoundsEffect s).fault = if s.config.checked then 1#2 else 2#2 := by
  rw [← raiseOutOfBounds_eq, raiseOutOfBounds_fault]
  rfl

/-- An engine with a FAULT is busy (R25, R175). -/
theorem busy_of_fault {s : State} (hfault : s.fault ≠ faultNone) : s.busy = true := by
  rw [← Bool.not_eq_false, busy_eq_false_iff]
  exact fun ⟨_, hnone⟩ => hfault hnone

/-- The engine is FAULTED after it took OutOfBounds (R175). -/
theorem outOfBoundsEffect_busy (s : State) : (outOfBoundsEffect s).busy = true := by
  refine busy_of_fault ?_
  rw [outOfBoundsEffect_fault]
  split <;> decide

/-- The three pixel operations take OutOfBounds when the first pixel they visit is outside, and nothing else happens. -/
theorem pixelOperations_outside {s t : State} {x y : Nat} (w h : Nat) (v : Byte) (hout : inBounds s.config x y = false)
    (ht : outOfBoundsEffect s = t) :
    exec (.getPixel x y) s = .next t ∧ exec (.setPixel x y v) s = .next t ∧
    exec (.partialFill x y (w + 1) (h + 1) v) s = .next t ∧ t.busy = true := by
  subst ht
  exact ⟨exec_getPixel_outside hout, exec_setPixel_outside v hout, exec_partialFill_outside w h v hout,
    outOfBoundsEffect_busy s⟩

/-- Settles O20: with CHECKED = 1 the effect of OutOfBounds is the contract violation. -/
theorem checkedOutOfBoundsIsAContractViolation : Obligations.CheckedOutOfBoundsIsAContractViolation := by
  intro s x y w h v hchecked hout t
  exact pixelOperations_outside w h v ((inBounds_eq_false_iff _ x y).2 hout) (if_pos hchecked)

/-- Settles O21: with CHECKED = 0 the effect of OutOfBounds is FAULT = 2 and no response. -/
theorem uncheckedOutOfBoundsSendsNoResponse : Obligations.UncheckedOutOfBoundsSendsNoResponse := by
  intro s x y w h v hchecked hout t
  exact pixelOperations_outside w h v ((inBounds_eq_false_iff _ x y).2 hout) (if_neg (by simp [hchecked]))

/-- Settles O45: PARTIAL_FLUSH checks no bounds, and the pixel operations take OutOfBounds at their first pixel. -/
theorem onlyPixelAccessIsStrictAboutBounds : Obligations.OnlyPixelAccessIsStrictAboutBounds := by
  intro s x y w h v
  refine ⟨fun t ht => (exec_executed ht).fault_eq rfl, fun hout i hi => ?_⟩
  refine ⟨outOfBoundsEffect s, ?_, outOfBoundsEffect_fault s⟩
  obtain ⟨hget, hset, hfill, -⟩ := pixelOperations_outside w h v hout rfl
  simp only [List.mem_cons, List.not_mem_nil, or_false] at hi
  rcases hi with rfl | rfl | rfl
  · exact hget
  · exact hset
  · exact hfill

/-! ### The FAULTED engine -/

/-- With no reset presented, a FAULTED engine stays as it is (R175). -/
theorem step_of_fault {s : State} (hfault : s.fault ≠ faultNone) (hreset : ∀ c rest, s.host ≠ .reset c :: rest) :
    step s = .next s :=
  (step_of_busy hreset (busy_of_fault hfault)).trans (if_neg hfault)

/-- With a reset presented, a step that answers a next state applies it (R190). -/
theorem eq_applyReset_of_step {s t : State} {c : EngineConfig} {rest : List HostInput} (hhost : s.host = .reset c :: rest)
    (h : step s = .next t) : t = applyReset c s.dropHost := by
  cases step_stepped h with
  | reset c' rest' hhost' =>
    obtain ⟨rfl, -⟩ : c' = c ∧ rest' = rest := by simpa [hhost'] using hhost
    rfl
  | illegal _ _ hhost' => simp [hhost'] at hhost
  | executed _ _ _ _ hhost' => simp [hhost'] at hhost
  | idle hreset => exact absurd hhost (hreset c rest)
  | resumed _ _ hreset => exact absurd hhost (hreset c rest)

/-- Settles O11: with no reset presented the step answers the state itself, and a reset clears FAULT and `op`. -/
theorem faultedEngineStaysFaultedUntilReset : Obligations.FaultedEngineStaysFaultedUntilReset := by
  intro s hfault
  refine ⟨busy_of_fault hfault, fun ⟨_, _, hnone, _⟩ => hfault hnone, fun t hreset h => ?_, fun c rest t hhost h => ?_⟩
  · obtain rfl : s = t := Host.Outcome.next.inj ((step_of_fault hfault hreset).symm.trans h)
    exact ⟨busy_of_fault hfault, rfl, rfl, rfl, rfl, rfl⟩
  · rw [eq_applyReset_of_step hhost h]
    exact ⟨applyReset_fault _ c, rfl⟩

/-! ### TransportError -/

/-- Taking TransportError, with the response word written out (R66, R174). -/
theorem raiseTransportError_eq (e : BitVec 32) (s : State) : raiseTransportError e s =
    { s with op := none, responses := s.responses ++ [e ++ 0x00000001#32] } := by
  rw [raiseTransportError, State.respond, responseWord_transportError]

/-- Waiting for an answer that is ERR with a code of TE_BITS bits takes TransportError, whatever was to follow (R174). -/
theorem awaitAnswer_err (f : State → State) {s : State} {e : BitVec 32} {rest : List IfaceInput}
    (he : e.toNat < 2 ^ s.config.teBits.toNat) (hanswer : s.iface = .answer (.err e) :: rest) :
    awaitAnswer f s =
      raiseTransportError e { s with iface := rest, downstream := s.downstream ++ [.answered (.err e)] } := by
  simp only [awaitAnswer, hanswer, portErrorCode_of_lt he]

/-- A transaction awaits its answer exactly when the operation in progress has issued one (R29). -/
theorem awaiting_iff (s : State) : s.awaiting = true ↔ ∃ o, s.op = some o ∧ o.pending = true := by
  cases hop : s.op with
  | none => simp [State.awaiting, hop]
  | some o => simp [State.awaiting, hop]

/-- An operation is in progress only while FAULT is NONE (R175). -/
theorem Invariant.fault_eq_none {s : State} (hs : Invariant s) {o : Operation} (hop : s.op = some o) :
    s.fault = faultNone := by
  by_contra hfault
  simp [hs.faulted hfault] at hop

/-- Settles O58: the operation that waits takes the answer ERR, and TransportError drops the rest of its sequence. -/
theorem transportErrorEndsTheOperationInProgress : Obligations.TransportErrorEndsTheOperationInProgress := by
  intro s e rest hs hwait he hanswer hreset
  obtain ⟨o, hop, hpending⟩ := (awaiting_iff s).1 hwait
  have hfault : s.fault = faultNone := hs.fault_eq_none hop
  obtain ⟨ts, hseq, -⟩ := hs.op o hop
  have hstep : step s = .next (Resumed o ts s) := step_of_op hfault hop hreset hseq
  rw [Resumed, if_pos hpending, awaitAnswer_err _ he hanswer, raiseTransportError_eq] at hstep
  exact ⟨_, hstep, rfl, (busy_eq_false_iff _).2 ⟨rfl, hfault⟩⟩

/-! ### The idle engine -/

/-- Settles O59: with no request to take and no operation to go on with, the engine's own move is to stay. -/
theorem idleEngineDoesNothingOfItsOwn : Obligations.IdleEngineDoesNothingOfItsOwn := by
  intro s hbusy hhost
  obtain ⟨hop, hfault⟩ := (busy_eq_false_iff s).1 hbusy
  simp only [step, machineMove, hhost, engineMove, hfault, if_true, hop]

end Sys2Proof.Machine

/-! ## Reset and hazards (70_reset_and_hazards.md)

Which configurations a reset takes and what it leaves, the request that waits at a busy port, the transaction that is not
answered, and the runs that have no successful end. -/

namespace Sys2Proof.Machine

/-! ### Reset -/

/-- A reset at the front of the host's script is taken at once (R190). -/
theorem step_of_reset {s : State} {c : EngineConfig} {rest : List HostInput} (hhost : s.host = .reset c :: rest) :
    step s = hostReset c { s with host := rest } := by
  simp only [step, machineMove, hhost, State.dropHost, List.tail_cons]

/-- Four low bits are zero when each of them is. -/
theorem extract_low_eq_zero_iff (b : Byte) : b.extractLsb' 0 4 = 0#4 ↔ ∀ k < 4, b.getLsbD k = false := by
  rw [BitVec.eq_of_getLsbD_eq_iff]
  refine forall₂_congr fun k hk => ?_
  simp [hk]

/-- WMAX by cases on the address mode (R5). -/
theorem wMax_eq_ite (c : EngineConfig) : wMax c = if c.colAddrMode = .pixel then 256 else 512 := by
  unfold wMax
  split <;> simp [*]

/-- Settles O13: the conditions are those of `legalConfig`, with WMAX and the zero nibbles written out. -/
theorem illegalConfigurationIsRefused : Obligations.IllegalConfigurationIsRefused := by
  intro s c rest hhost legal
  have hlegal : legalConfig c = true ↔ legal := by
    rw [legalConfig_iff, extract_low_eq_zero_iff, extract_low_eq_zero_iff, wMax_eq_ite, ← and_assoc (a := ∀ k < 4, _),
      ← forall₂_and]
    rfl
  rw [step_of_reset hhost, ← hlegal]
  exact ⟨fun h => ⟨_, if_pos h⟩, fun h => if_neg h⟩

/-- The event that marks an abandoned transaction is no transaction (R190). -/
theorem transactionsOf_applyReset (c : EngineConfig) (s : State) :
    transactionsOf (applyReset c s).downstream = transactionsOf s.downstream := by
  rw [applyReset_downstream]
  split
  · rw [transactionsOf_append]
    exact List.append_nil _
  · rfl

/-- Settles O12: the state after the step is `applyReset`'s. -/
theorem resetSetsEveryPieceOfState : Obligations.ResetSetsEveryPieceOfState := by
  intro s c rest hhost hlegal
  refine ⟨_, (step_of_reset hhost).trans (if_pos hlegal), ?_⟩
  exact ⟨rfl, fun _ => rfl, rfl, rfl, rfl, rfl, rfl, transactionsOf_applyReset c _, rfl, rfl⟩

/-! ### The request that waits -/

/-- While BUSY, no step but a reset takes anything from the host's script (R195). -/
theorem Stepped.host_eq {s t : State} (h : Stepped s t) (hbusy : s.busy = true)
    (hreset : ∀ c rest, s.host ≠ .reset c :: rest) : t.host = s.host := by
  cases h with
  | reset c rest hhost => exact absurd hhost (hreset c rest)
  | illegal _ _ _ hready => simp [hbusy] at hready
  | executed _ _ _ _ _ hready => simp [hbusy] at hready
  | idle => rfl
  | resumed o ts =>
    obtain ⟨-, -, -, hhost, -⟩ := resumed_frame o ts s
    exact hhost

/-- A ready engine takes the request, whether its word decodes or not (R28, R69). -/
theorem host_of_request {s t : State} {word : RequestWord} {rest : List HostInput} (hready : s.busy = false)
    (hhost : s.host = .request word :: rest) (h : step s = .next t) : t.host = rest := by
  cases hword : decode word with
  | ok i =>
    rw [step_of_request hready hhost hword] at h
    obtain ⟨-, hkept, -⟩ := executed_frame (exec_executed h)
    exact hkept
  | error e =>
    rw [step_of_illegalWord hready hhost hword] at h
    obtain rfl := Host.Outcome.next.inj h
    rfl

/-- Settles O15: a busy engine leaves the host's script, and a ready one takes its first request. -/
theorem requestWaitsWhileBusy : Obligations.RequestWaitsWhileBusy := by
  intro s t word rest hhost h
  refine ⟨fun hbusy => ?_, fun hready => host_of_request hready hhost h⟩
  rw [(step_stepped h).host_eq hbusy (by simp [hhost]), hhost]

/-! ### The transaction that is not answered -/

/-- With a transaction outstanding and no reset presented, the step waits for the answer (R27, R29). -/
theorem step_of_awaiting {s : State} (hs : Invariant s) (hwait : s.awaiting = true)
    (hreset : ∀ c rest, s.host ≠ .reset c :: rest) : ∃ f, step s = .next (awaitAnswer f s) := by
  obtain ⟨o, hop, hpending⟩ := (awaiting_iff s).1 hwait
  obtain ⟨ts, hseq, -⟩ := hs.op o hop
  have hstep := step_of_op (hs.fault_eq_none hop) hop hreset hseq
  rw [Resumed, if_pos hpending] at hstep
  exact ⟨_, hstep⟩

/-- An engine with a transaction outstanding is busy (R25, R29). -/
theorem busy_of_awaiting {s : State} (hwait : s.awaiting = true) : s.busy = true := by
  obtain ⟨o, hop, -⟩ := (awaiting_iff s).1 hwait
  simp [State.busy, hop]

/-- Settles O16: waiting for an answer with none to come is staying. -/
theorem stalledTransportStallsTheEngine : Obligations.StalledTransportStallsTheEngine := by
  intro s hs hwait hsilent hreset
  obtain ⟨f, hstep⟩ := step_of_awaiting hs hwait hreset
  have hstay : awaitAnswer f s = s := by simp only [awaitAnswer, hsilent]
  refine ⟨hstep.trans (congrArg _ hstay), busy_of_awaiting hwait, ?_⟩
  rintro ⟨-, -, -, -, hidle, -⟩
  simp [hwait] at hidle

/-! ### The answer that comes late -/

/-- An entry of the downstream script that leaves the outstanding transaction unanswered: silence, or the late answer to an
abandoned one (R190). -/
def IfaceInput.LeavesUnanswered (e : IfaceInput) : Prop := e = .silent ∨ ∃ a, e = .late a

theorem leavesUnanswered_silent : IfaceInput.LeavesUnanswered .silent := .inl rfl

theorem leavesUnanswered_late (a : Answer) : IfaceInput.LeavesUnanswered (.late a) := .inr ⟨a, rfl⟩

/-- Met by a waiting engine, such an entry is skipped. -/
theorem awaitAnswer_unanswered (f : State → State) {s : State} {e : IfaceInput} {rest : List IfaceInput}
    (he : e.LeavesUnanswered) (h : s.iface = e :: rest) : awaitAnswer f s = { s with iface := rest } := by
  rcases he with rfl | ⟨a, rfl⟩ <;> simp only [awaitAnswer, h]

/-- Met at position `n` of a sequence, such an entry stops the operation there, with the transaction outstanding. -/
theorem runTransactions_unanswered (i : Instr) {ts : List Transaction} {n : Nat} (hn : n < ts.length) (k : Nat) (s : State)
    {e : IfaceInput} {rest : List IfaceInput} (he : e.LeavesUnanswered) (h : s.iface = okAnswers n ++ e :: rest) :
    runTransactions i ts k s =
      { s with iface := rest, op := some ⟨i, k + n, true⟩,
               downstream := s.downstream ++ exchanges (ts.take n) ++ [.sent ts[n]] } := by
  have hlen : (ts.take n).length = n := List.length_take_of_le hn.le
  have hsplit : ts = ts.take n ++ ts[n] :: ts.drop (n + 1) := by simp
  have hthrough := runTransactions_through i (ts.take n) (ts[n] :: ts.drop (n + 1)) k s (e :: rest)
    (List.cons_ne_nil _ _) (by rw [hlen, h])
  rw [← hsplit, hlen] at hthrough
  rw [hthrough]
  rcases he with rfl | ⟨a, rfl⟩
  · exact runTransactions_silent _ _ _ _ _ _ rfl
  · exact runTransactions_late _ _ _ _ _ _ _ rfl

/-- An operation in progress stops there too, whether its transaction is outstanding or not yet issued. Where it stops does
not depend on the entry. -/
theorem resumed_unanswered {s : State} {o : Operation} {ts : List Transaction} {n : Nat} (rest : List IfaceInput)
    (hop : s.op = some o) (hn : o.step + n < ts.length) :
    ∃ events, ∀ e : IfaceInput, e.LeavesUnanswered →
      Resumed o ts { s with iface := okAnswers n ++ e :: rest } =
        { s with iface := rest, op := some ⟨o.request, o.step + n, true⟩, downstream := s.downstream ++ events } := by
  obtain ⟨i, k, pending⟩ := o
  dsimp only at hn
  cases pending with
  | false =>
    have hdrop : n < (ts.drop k).length := by rw [List.length_drop]; omega
    refine ⟨exchanges ((ts.drop k).take n) ++ [.sent (ts.drop k)[n]], fun e he => ?_⟩
    rw [← List.append_assoc]
    exact runTransactions_unanswered i hdrop k _ he rfl
  | true =>
    cases n with
    | zero =>
      refine ⟨[], fun e he => (awaitAnswer_unanswered _ he rfl).trans ?_⟩
      simp [hop]
    | succ n =>
      have hdrop : n < (ts.drop (k + 1)).length := by rw [List.length_drop]; omega
      refine ⟨.answered .ok :: (exchanges ((ts.drop (k + 1)).take n) ++ [.sent (ts.drop (k + 1))[n]]), fun e he => ?_⟩
      refine (runTransactions_unanswered i hdrop (k + 1)
        { s with iface := okAnswers n ++ e :: rest, downstream := s.downstream ++ [.answered .ok] } he rfl).trans ?_
      simp [Nat.add_assoc, Nat.add_comm 1 n]

/-- Settles O55: a late answer leaves the outstanding transaction as silence does. -/
theorem lateAnswersAreIgnored : Obligations.LateAnswersAreIgnored := by
  refine ⟨fun s a rest hs hwait hlate hreset => ?_, fun s i ts n a rest hseq hn => ?_,
    fun s o ts n a rest hfault hop hreset hseq hn => ?_⟩
  · obtain ⟨f, hstep⟩ := step_of_awaiting hs hwait hreset
    exact hstep.trans (congrArg _ (awaitAnswer_unanswered f (leavesUnanswered_late a) hlate))
  · have hport : usesPort i = true := usesPort_of_sequenceOf hseq (List.ne_nil_of_length_pos (by omega))
    have hexec (e : IfaceInput) (he : e.LeavesUnanswered) :=
      (exec_of_sequence (s := { s with iface := okAnswers n ++ e :: rest }) hport
        (sequenceOf_transfer hseq rfl rfl)).trans (congrArg _ (runTransactions_unanswered i hn 0 _ he rfl))
    exact ⟨_, hexec _ (leavesUnanswered_late a), by rw [Nat.zero_add], rfl, rfl, hexec _ leavesUnanswered_silent⟩
  · obtain ⟨events, hresumed⟩ := resumed_unanswered rest hop hn
    have hstep (e : IfaceInput) (he : e.LeavesUnanswered) :=
      (step_of_op (s := { s with iface := okAnswers n ++ e :: rest }) hfault hop hreset
        (sequenceOf_transfer hseq rfl rfl)).trans (congrArg _ (hresumed e he))
    exact ⟨_, hstep _ (leavesUnanswered_late a), rfl, rfl, rfl, hstep _ leavesUnanswered_silent⟩

/-! ### Runs without a successful end -/

/-- Only a reset sets the marks of a run (D17, D24). -/
theorem Stepped.marks_eq {s t : State} (h : Stepped s t) (hreset : ∀ c rest, s.host ≠ .reset c :: rest) :
    t.abandoned = s.abandoned ∧ t.violated = s.violated := by
  cases h with
  | reset c rest hhost => exact absurd hhost (hreset c rest)
  | illegal => exact ⟨rfl, rfl⟩
  | executed word rest i t _ _ _ hexec =>
    obtain ⟨-, -, habandoned, hviolated⟩ := executed_frame (exec_executed hexec)
    exact ⟨habandoned, hviolated⟩
  | idle => exact ⟨rfl, rfl⟩
  | resumed o ts =>
    obtain ⟨-, -, -, -, habandoned, hviolated⟩ := resumed_frame o ts s
    exact ⟨habandoned, hviolated⟩

/-- A step marks the run when it is a reset with an operation in progress, or of a FAULTED engine. -/
theorem marks_of_step {s t : State} (h : step s = .next t) :
    (t.abandoned = true ↔ s.abandoned = true ∨ (s.op ≠ none ∧ ∃ c rest, s.host = .reset c :: rest)) ∧
    (t.violated = true ↔ s.violated = true ∨ (s.fault ≠ 0#2 ∧ ∃ c rest, s.host = .reset c :: rest)) := by
  by_cases hreset : ∃ c rest, s.host = .reset c :: rest
  · obtain ⟨c, rest, hhost⟩ := hreset
    rw [eq_applyReset_of_step hhost h]
    simp [hhost, Option.isSome_iff_ne_none, faultNone]
  · obtain ⟨habandoned, hviolated⟩ :=
      (step_stepped h).marks_eq fun c rest hhost => hreset ⟨c, rest, hhost⟩
    simp only [habandoned, hviolated, hreset, and_false, or_false, and_self]

/-- On a port with nothing outstanding at the end and nothing abandoned, every transaction was answered (R27, R53). -/
theorem answered_of_portOutstanding {before after : List PortEvent} {t : Transaction}
    (hport : portOutstanding false (before ++ .sent t :: after) = some false)
    (hkept : PortEvent.abandoned ∉ before ++ .sent t :: after) : ∃ a later, after = .answered a :: later := by
  rw [portOutstanding_append] at hport
  obtain ⟨outstanding, -, hafter⟩ := Option.bind_eq_some_iff.1 hport
  cases outstanding with
  | true => simp [portOutstanding] at hafter
  | false =>
    cases after with
    | nil => simp [portOutstanding] at hafter
    | cons e later =>
      cases e with
      | sent => simp [portOutstanding] at hafter
      | answered a => exact ⟨a, later, rfl⟩
      | abandoned => simp at hkept

/-- Settles O56: the mark is `applyReset`'s, and without it no transaction was left unanswered. -/
theorem anAbandonedOperationLeavesNoSuccessfulEnd : Obligations.AnAbandonedOperationLeavesNoSuccessfulEnd := by
  refine ⟨fun s t h => (marks_of_step h).1, ?_, ?_⟩
  · rintro s hmark ⟨-, -, -, -, -, hunmarked, -⟩
    simp [hmark] at hunmarked
  · rintro s hs ⟨-, -, -, -, hidle, hunmarked, -⟩ before t after hdown
    have hport := hs.port
    have hkept : PortEvent.abandoned ∉ s.downstream := fun hmem => by simp [hs.unanswered hmem] at hunmarked
    rw [hdown] at hport hkept
    rw [hidle] at hport
    exact answered_of_portOutstanding hport hkept

/-- A FAULT is left only by a reset, which marks the run (R175, D17). -/
theorem fault_or_violated_of_step {s t : State} (h : step s = .next t) (hs : s.fault ≠ 0#2 ∨ s.violated = true) :
    t.fault ≠ 0#2 ∨ t.violated = true := by
  obtain ⟨-, hmark⟩ := marks_of_step h
  rcases hs with hfault | hviolated
  · by_cases hreset : ∃ c rest, s.host = .reset c :: rest
    · exact .inr (hmark.2 (.inr ⟨hfault, hreset⟩))
    · have hstay := step_of_fault hfault fun c rest hhost => hreset ⟨c, rest, hhost⟩
      obtain rfl : s = t := Host.Outcome.next.inj (hstay.symm.trans h)
      exact .inl hfault
  · exact .inr (hmark.2 (.inl hviolated))

/-- Settles O57: a FAULT stays or leaves its mark, and a successful end has neither. -/
theorem aViolationLeavesNoSuccessfulEnd : Obligations.AViolationLeavesNoSuccessfulEnd := by
  refine ⟨fun s t h => (marks_of_step h).2, fun s t h => fault_or_violated_of_step h, ?_, fun s => ?_⟩
  · rintro s hs ⟨-, -, hnone, -, -, -, hunmarked⟩
    rcases hs with hfault | hviolated
    · exact hfault hnone
    · simp [hviolated] at hunmarked
  · rw [outOfBoundsEffect_fault]
    split <;> decide

end Sys2Proof.Machine
